-- ==== Sys2Proof/Word.lean ====
section
/-! DEFINITION. The words of the block and the plain records made of them: bytes, converter words, channel
numbers, the sample of R33 and the sample group of R43. -/

namespace Sys2Proof

/-- A byte is 8 bits (00_scope.md R11). -/
abbrev Byte := BitVec 8

/-- A raw converter word, `W = 16` bits (00_scope.md R6). -/
abbrev Word := BitVec 16

/-- A payload nibble of a trigger command (30_encoding.md R64). -/
abbrev Nibble := BitVec 4

/-- A channel number, 0..3 (00_scope.md R6, `NCH = 4`). -/
abbrev Chan := BitVec 2

/-- The channel mask: bit `c` says that channel `c` is enabled (10_state.md R21). -/
abbrev Mask := BitVec 4

/-- A Sample (10_state.md R33): the trigger marker, the channel and the raw word. Its 19-bit layout is
`Sample.toBits` (Machine/Operands.lean). -/
structure Sample where
  mark : Bool
  ch : Chan
  raw : Word
  deriving DecidableEq, Repr, Inhabited

/-- A sample group: the words of channels 0 to 3 of one conversion (10_state.md R43). -/
structure Group where
  w0 : Word
  w1 : Word
  w2 : Word
  w3 : Word
  deriving DecidableEq, Repr, Inhabited

end Sys2Proof
end

