-- ==== Sys2Proof/Syntax.lean ====
section
/-! DEFINITION. The instructions of the block: one constructor per row of spec/opcode_table.json. The twelve
command frames come from the host; the two response frames are emitted by the block (30_encoding.md R70, R71).
Ignored bits of a frame are no operands (R67). -/

namespace Sys2Proof

/-- The edge direction of `trig.edge` (10_state.md R27). -/
inductive Edge where
  | falling
  | rising
  deriving DecidableEq, Repr

/-- The instructions, named by the mnemonics of 30_encoding.md R70 and R71. -/
inductive Instr where
  /-- CHEN c: enable channel c (41_channel_gate.md R95). -/
  | chen (c : Chan)
  /-- CHDIS c: disable channel c (R96). -/
  | chdis (c : Chan)
  /-- TRIGON: enable and arm the trigger (42_trigger_engine.md R101). -/
  | trigon
  /-- TRIGOFF: disable and disarm the trigger (R102). -/
  | trigoff
  /-- TRIGCH c: set the trigger channel (R104). -/
  | trigch (c : Chan)
  /-- LVLHI n: stage the level's high nibble (R105). -/
  | lvlhi (n : Nibble)
  /-- LVLLO n: commit the level (R106). -/
  | lvllo (n : Nibble)
  /-- EDGE r: set the edge direction (R107). -/
  | edge (r : Edge)
  /-- FORCE: force a trigger (R109). -/
  | force
  /-- TRIGRSV s, s in 6..7: a reserved sub-command (R103). -/
  | trigrsv6_7 (s : Nibble)
  /-- TRIGRSV s, s in 8..15: a reserved sub-command (R103). -/
  | trigrsv8_15 (s : Nibble)
  /-- CMDNOP k, v: an unrecognised command byte k with its value byte v (40_protocol_codec.md R86). -/
  | cmdnop (k v : Byte)
  /-- DATA c, raw: a response frame without the trigger mark, 5 bytes (30_encoding.md R71). -/
  | data (c : Chan) (raw : Word)
  /-- DATAMK c, raw: a response frame with the trigger mark, 6 bytes (30_encoding.md R71). -/
  | datamk (c : Chan) (raw : Word)
  deriving DecidableEq, Repr

/-- The host's command frames, as opposed to the block's response frames (30_encoding.md, opening). -/
def Instr.isCommand : Instr → Bool
  | .chen _ => true
  | .chdis _ => true
  | .trigon => true
  | .trigoff => true
  | .trigch _ => true
  | .lvlhi _ => true
  | .lvllo _ => true
  | .edge _ => true
  | .force => true
  | .trigrsv6_7 _ => true
  | .trigrsv8_15 _ => true
  | .cmdnop _ _ => true
  | .data _ _ => false
  | .datamk _ _ => false

end Sys2Proof
end

