-- ==== Sys2Proof/WellFormed.lean ====
section
/-! DEFINITION. Well-formed instructions: the operand ranges of 30_encoding.md R77 that the types do not
already give. -/

namespace Sys2Proof

/-- A TRIGRSV6_7 has its sub-command in 6..7, a TRIGRSV8_15 in 8..15 (30_encoding.md R70, R77), and the command
byte of a CMDNOP is neither 0xFE nor 0xFF (R68); every operand of the others is legal. -/
def Instr.wellFormed : Instr → Bool
  | .chen _ => true
  | .chdis _ => true
  | .trigon => true
  | .trigoff => true
  | .trigch _ => true
  | .lvlhi _ => true
  | .lvllo _ => true
  | .edge _ => true
  | .force => true
  | .trigrsv6_7 s => decide (6 ≤ s.toNat ∧ s.toNat ≤ 7)
  | .trigrsv8_15 s => decide (8 ≤ s.toNat)
  | .cmdnop k _ => decide (k ≠ 0xFE#8 ∧ k ≠ 0xFF#8)
  | .data _ _ => true
  | .datamk _ _ => true

end Sys2Proof
end

