-- ==== Sys2Proof/Decode.lean ====
section
/-! DEFINITION. Decoding and encoding. The block's decoder reads command frames (30_encoding.md R61–R70, 40_protocol_codec.md
R85); the host's reader reads response frames (30_encoding.md R73, 40_protocol_codec.md R94). After them the encoder, the opcode map of
R70 as rows, and the pseudo-instructions of R79. -/

namespace Sys2Proof

/-- FRAME_START (00_scope.md R6). -/
def frameStart : Byte := 0xAA#8
/-- FRAME_END (00_scope.md R6). -/
def frameEnd : Byte := 0x55#8
/-- TRIGGER_MARK (00_scope.md R6). -/
def triggerMark : Byte := 0xCC#8
/-- The command byte of the channel gate (30_encoding.md R62). -/
def cmdGate : Byte := 0xFF#8
/-- The command byte of trigger configuration (30_encoding.md R62). -/
def cmdTrigger : Byte := 0xFE#8

/-! ## Operand fields of a value byte (30_encoding.md R63–R65) -/

/-- `c = value[1:0]` of a channel-gate frame (R63). -/
def gateChan (v : Byte) : Chan := v.extractLsb' 0 2
/-- `en = value[2]` of a channel-gate frame (R63). -/
def gateEnableBit (v : Byte) : Bool := v.getLsbD 2
/-- `sub = value[3:0]` of a trigger-configuration frame (R64). -/
def subCommand (v : Byte) : Nibble := v.extractLsb' 0 4
/-- `p = value[7:4]`, the payload nibble (R64). -/
def payload (v : Byte) : Nibble := v.extractLsb' 4 4
/-- `c = value[5:4]` of TRIGCH (R65). -/
def trigChan (v : Byte) : Chan := v.extractLsb' 4 2
/-- `value[4]`: enable of sub-command 0, edge of sub-command 4 (R65). -/
def payloadBit (v : Byte) : Bool := v.getLsbD 4

/-- The edge a bit stands for: 1 is RISING, 0 is FALLING (10_state.md R27). -/
def Edge.ofBit (b : Bool) : Edge := if b then .rising else .falling
/-- The bit of an edge (10_state.md R27). -/
def Edge.toBit : Edge → Bool
  | .rising => true
  | .falling => false

/-! ## Decoding -/

/-- The trigger-configuration sub-commands (30_encoding.md R65, 40_protocol_codec.md R85). -/
def decodeTrigger (v : Byte) : Instr :=
  match (subCommand v).toNat with
  | 0 => if payloadBit v then .trigon else .trigoff
  | 1 => .trigch (trigChan v)
  | 2 => .lvlhi (payload v)
  | 3 => .lvllo (payload v)
  | 4 => .edge (Edge.ofBit (payloadBit v))
  | 5 => .force
  | 6 => .trigrsv6_7 (subCommand v)
  | 7 => .trigrsv6_7 (subCommand v)
  | _ => .trigrsv8_15 (subCommand v)

/-- The instruction of a command byte and a value byte: the dispatch of 40_protocol_codec.md R85. It is total:
no command frame is illegal (30_encoding.md R68). -/
def decodeCommand (cmd v : Byte) : Instr :=
  if cmd = cmdGate then
    if gateEnableBit v then .chen (gateChan v) else .chdis (gateChan v)
  else if cmd = cmdTrigger then decodeTrigger v
  else .cmdnop cmd v

/-- Why bytes are no frame. -/
inductive DecodeError where
  /-- The first byte is not FRAME_START: a stray byte (30_encoding.md R69). -/
  | notFrameStart (b : Byte)
  /-- Fewer bytes than the frame has (30_encoding.md R71, R76). -/
  | truncated
  /-- Byte 1 of a response frame is not 0x00..0x03 (30_encoding.md R72; log 13). -/
  | badChannelByte (b : Byte)
  /-- Byte 4 of a response frame is neither TRIGGER_MARK nor FRAME_END (30_encoding.md R73; log 13). -/
  | badMarker (b : Byte)
  /-- The last byte of a 6-byte response frame is not FRAME_END (30_encoding.md R71; log 13). -/
  | badFrameEnd (b : Byte)
  deriving DecidableEq, Repr

/-- A command frame at the front of a byte list, with the bytes after it (30_encoding.md R61, R76). -/
def decode : List Byte → Except DecodeError (Instr × List Byte)
  | [] => .error .truncated
  | b0 :: rest =>
    if b0 = frameStart then
      match rest with
      | cmd :: v :: rest' => .ok (decodeCommand cmd v, rest')
      | _ => .error .truncated
    else .error (.notFrameStart b0)

/-- A response frame at the front of a byte list, as a host aligned at a frame start reads it: `ch = byte1[1:0]`,
`raw` = bytes 2 and 3, marked exactly when byte 4 is TRIGGER_MARK (40_protocol_codec.md R94, 30_encoding.md R73). -/
def decodeResponse : List Byte → Except DecodeError (Instr × List Byte)
  | b0 :: ch :: hi :: lo :: b4 :: rest =>
    if b0 ≠ frameStart then .error (.notFrameStart b0)
    else if 4 ≤ ch.toNat then .error (.badChannelByte ch)
    else if b4 = triggerMark then
      match rest with
      | b5 :: rest' =>
        if b5 = frameEnd then .ok (.datamk (ch.extractLsb' 0 2) (hi ++ lo), rest')
        else .error (.badFrameEnd b5)
      | [] => .error .truncated
    else if b4 = frameEnd then .ok (.data (ch.extractLsb' 0 2) (hi ++ lo), rest)
    else .error (.badMarker b4)
  | _ => .error .truncated

/-! ## Encoding -/

/-- `EncodeFrame(ch, raw, mk)` (40_protocol_codec.md R90). -/
def encodeFrame (e : Sample) : List Byte :=
  [frameStart, e.ch.setWidth 8, e.raw.extractLsb' 8 8, e.raw.extractLsb' 0 8]
    ++ (if e.mark then [triggerMark] else []) ++ [frameEnd]

/-- The command byte of a command frame (30_encoding.md R62, R77); a response frame has none. -/
def Instr.commandByte : Instr → Byte
  | .chen _ => cmdGate
  | .chdis _ => cmdGate
  | .trigon => cmdTrigger
  | .trigoff => cmdTrigger
  | .trigch _ => cmdTrigger
  | .lvlhi _ => cmdTrigger
  | .lvllo _ => cmdTrigger
  | .edge _ => cmdTrigger
  | .force => cmdTrigger
  | .trigrsv6_7 _ => cmdTrigger
  | .trigrsv8_15 _ => cmdTrigger
  | .cmdnop k _ => k
  | .data _ _ => 0x00#8
  | .datamk _ _ => 0x00#8

/-- The canonical value byte of a command frame, ignored bits 0 (30_encoding.md R77); a response frame has none. -/
def Instr.valueByte : Instr → Byte
  | .chen c => 0x04#8 ||| c.setWidth 8
  | .chdis c => c.setWidth 8
  | .trigon => 0x10#8
  | .trigoff => 0x00#8
  | .trigch c => (c.setWidth 8 <<< 4) ||| 0x01#8
  | .lvlhi n => (n.setWidth 8 <<< 4) ||| 0x02#8
  | .lvllo n => (n.setWidth 8 <<< 4) ||| 0x03#8
  | .edge .rising => 0x14#8
  | .edge .falling => 0x04#8
  | .force => 0x05#8
  | .trigrsv6_7 s => s.setWidth 8
  | .trigrsv8_15 s => s.setWidth 8
  | .cmdnop _ v => v
  | .data _ _ => 0x00#8
  | .datamk _ _ => 0x00#8

/-- The canonical command frame `AA command value` (30_encoding.md R61, R77). -/
def commandFrame (i : Instr) : List Byte := [frameStart, i.commandByte, i.valueByte]

/-- The bytes of an instruction: the canonical command frame of 30_encoding.md R77, or the response frame of R71. -/
def encode : Instr → List Byte
  | .chen c => commandFrame (.chen c)
  | .chdis c => commandFrame (.chdis c)
  | .trigon => commandFrame .trigon
  | .trigoff => commandFrame .trigoff
  | .trigch c => commandFrame (.trigch c)
  | .lvlhi n => commandFrame (.lvlhi n)
  | .lvllo n => commandFrame (.lvllo n)
  | .edge r => commandFrame (.edge r)
  | .force => commandFrame .force
  | .trigrsv6_7 s => commandFrame (.trigrsv6_7 s)
  | .trigrsv8_15 s => commandFrame (.trigrsv8_15 s)
  | .cmdnop k v => commandFrame (.cmdnop k v)
  | .data c raw => encodeFrame ⟨false, c, raw⟩
  | .datamk c raw => encodeFrame ⟨true, c, raw⟩

/-- The response instruction that carries a sample: DATA when its marker is 0, DATAMK when it is 1 (R71). -/
def responseOf (e : Sample) : Instr := if e.mark then .datamk e.ch e.raw else .data e.ch e.raw

/-- The length in bytes of the frame a sample is emitted as (30_encoding.md R75, 40_protocol_codec.md R90). -/
def frameLen (mk : Bool) : Nat := if mk then 6 else 5

/-! ## The opcode map as rows (30_encoding.md R70) -/

/-- A row of the opcode map: a frame `F` selects it when `F &&& mask = match` (R70). -/
structure OpRow where
  mnemonic : String
  matchBits : BitVec 24
  maskBits : BitVec 24
  deriving DecidableEq, Repr

/-- `F = {b0, b1, b2}` (30_encoding.md R61). -/
def frameWord (b0 b1 b2 : Byte) : BitVec 24 := b0 ++ b1 ++ b2

/-- The rows of R70 but for CMDNOP, which applies only when no other row matches (R81). -/
def opRows : List OpRow :=
  [⟨"CHEN", 0xAAFF04#24, 0xFFFF04#24⟩, ⟨"CHDIS", 0xAAFF00#24, 0xFFFF04#24⟩,
   ⟨"TRIGON", 0xAAFE10#24, 0xFFFF1F#24⟩, ⟨"TRIGOFF", 0xAAFE00#24, 0xFFFF1F#24⟩,
   ⟨"TRIGCH", 0xAAFE01#24, 0xFFFF0F#24⟩, ⟨"LVLHI", 0xAAFE02#24, 0xFFFF0F#24⟩,
   ⟨"LVLLO", 0xAAFE03#24, 0xFFFF0F#24⟩, ⟨"EDGE", 0xAAFE04#24, 0xFFFF0F#24⟩,
   ⟨"FORCE", 0xAAFE05#24, 0xFFFF0F#24⟩, ⟨"TRIGRSV6_7", 0xAAFE06#24, 0xFFFF0E#24⟩,
   ⟨"TRIGRSV8_15", 0xAAFE08#24, 0xFFFF08#24⟩]

/-- The row CMDNOP of R70. -/
def opRowNop : OpRow := ⟨"CMDNOP", 0xAA0000#24, 0xFF0000#24⟩

/-- Whether a frame selects a row (R70). -/
def OpRow.selects (r : OpRow) (f : BitVec 24) : Bool := f &&& r.maskBits == r.matchBits

/-- The mnemonics of the rows a frame selects, CMDNOP only when no other row matches (R70, R81). -/
def selectedMnemonics (f : BitVec 24) : List String :=
  match (opRows.filter (·.selects f)).map (·.mnemonic) with
  | [] => if opRowNop.selects f then [opRowNop.mnemonic] else []
  | ms => ms

/-- The table's mnemonic of an instruction (30_encoding.md R70, R71). -/
def Instr.mnemonic : Instr → String
  | .chen _ => "CHEN"
  | .chdis _ => "CHDIS"
  | .trigon => "TRIGON"
  | .trigoff => "TRIGOFF"
  | .trigch _ => "TRIGCH"
  | .lvlhi _ => "LVLHI"
  | .lvllo _ => "LVLLO"
  | .edge _ => "EDGE"
  | .force => "FORCE"
  | .trigrsv6_7 _ => "TRIGRSV6_7"
  | .trigrsv8_15 _ => "TRIGRSV8_15"
  | .cmdnop _ _ => "CMDNOP"
  | .data _ _ => "DATA"
  | .datamk _ _ => "DATAMK"

/-! ## Table words (log 11) -/

/-- The `n` bytes of a number, the most significant byte first (`F = {b0, b1, b2}`, 30_encoding.md R61, R74). -/
def bytesOfWord : Nat → Nat → List Byte
  | 0, _ => []
  | n + 1, w => BitVec.ofNat 8 (w / 256 ^ n) :: bytesOfWord n w

/-- The bytes a row of spec/opcode_table.json stands for: a command frame is one 24-bit number, a response frame
one of 40 or 48 bits, its first byte the most significant (R61, R74; log 11). -/
def tableBytes (nbits w : Nat) : List Byte :=
  if nbits ≤ 24 then bytesOfWord 3 w else bytesOfWord ((nbits + 7) / 8) w

/-- Command words are read by the block's decoder, response words by the host's reader (log 11). -/
def decodeTableBytes (nbits : Nat) (bs : List Byte) : Except DecodeError (Instr × List Byte) :=
  if nbits ≤ 24 then decode bs else decodeResponse bs

/-- The instruction the decoder reads from a table word of `nbits` bits; `none` where the bytes are no frame or
the word has bits above its frame. -/
def decodeTableWord (nbits w : Nat) : Option Instr :=
  if w < 256 ^ (tableBytes nbits w).length then
    match decodeTableBytes nbits (tableBytes nbits w) with
    | .ok (i, []) => some i
    | _ => none
  else none

/-! ## Pseudo-instructions (30_encoding.md R79) -/

/-- `LEVEL k`: LVLHI of the high nibble, then LVLLO of the low nibble. -/
def pseudoLevel (k : BitVec 8) : List Instr :=
  [.lvlhi (k.extractLsb' 4 4), .lvllo (k.extractLsb' 0 4)]

/-- The code of `LEVELV v`: `round(v × 3276.8 / 256)` clamped to −128..127. The rounding of a tie, which R79 does
not state, is upward (log 16). -/
def levelvCode (v : Rat) : BitVec 8 :=
  BitVec.ofInt 8 (max (-128) (min 127 (v * (32768 / 10) / 256 + 1 / 2).floor))

/-- `LEVELV v`, `v` in volts. -/
def pseudoLevelV (v : Rat) : List Instr := pseudoLevel (levelvCode v)

/-- `ARM ch, edge, k`: TRIGCH, EDGE, LEVEL, TRIGON, in that order. -/
def pseudoArm (c : Chan) (r : Edge) (k : BitVec 8) : List Instr :=
  [.trigch c, .edge r] ++ pseudoLevel k ++ [.trigon]

/-- `DISARM`: TRIGOFF. -/
def pseudoDisarm : List Instr := [.trigoff]

end Sys2Proof
end

