-- ==== Sys2Proof/Config.lean ====
section
/-! DEFINITION. What an implementation fixes (the parameters of 00_scope.md R7–R9) and the free values of the
model (values the spec leaves unspecified: 93_implementation_defined.md I14, I15). -/

namespace Sys2Proof.Config

/-- The parameters of 00_scope.md R7–R9. A model takes them as an argument (R10): State carries them in its
field `cfg`, so a statement about every state is a statement about every choice of them (log 1). -/
structure Params where
  /-- `CAP`, the ring buffer's capacity (R7). -/
  cap : Nat
  /-- `HYST_CODE`, the hysteresis half-width in converter codes (R8). -/
  hystCode : Nat
  /-- `MASK_RESET`, the mask after reset (R9). -/
  maskReset : Mask
  /-- `CMD_FIFO_DEPTH` in bytes; `none` is unbounded (R9). -/
  cmdDepth : Option Nat
  /-- `RSP_FIFO_DEPTH` in bytes; `none` is unbounded (R9). -/
  rspDepth : Option Nat
  /-- `INTER_CYCLE_DELAY` (R9): it has no effect on state, so no step reads it (R137, R171). -/
  interCycleDelay : Nat
  deriving DecidableEq, Repr

/-- The spec's default parameters (R7, R8, R9). `interCycleDelay` has no default in the spec: DESIGN CHOICE 0
(log 1). -/
def Params.default : Params where
  cap := 1000
  hystCode := 1638
  maskReset := 0b0000#4
  cmdDepth := none
  rspDepth := none
  interCycleDelay := 0

/-- FREE VALUE (log 7): the word of `grp` for a channel after a reset in the middle of a run, which R155 calls
unspecified; the first argument counts the resets, so each reset has a word of its own. -/
opaque freeGrpWord : Nat → Chan → Word

/-- FREE VALUE (log 6): what a ring-buffer slot reads as that no PUSH has written since the last reset (R34,
R155: unspecified); the arguments are the number of resets so far and the slot. -/
opaque freeEntry : Nat → Nat → Sample

end Sys2Proof.Config
end

