-- ==== Sys2Proof/Machine/State.lean ====
section
/-! DEFINITION. The state of the block (10_state.md R18–R41), the data of the agents around it, the reasons a step
can stop, and the state after reset (70_reset_and_hazards.md R155). -/

namespace Sys2Proof.Machine

/-- The sequencer's phase (10_state.md R19); the codes 6 and 7 are unused. -/
inductive Phase where
  | cmd
  | waitSmp
  | smp
  | drainCheck
  | drain
  | delay
  deriving DecidableEq, Repr

/-- The decoder's progress through a command frame (10_state.md R39); the code 3 is unused. -/
inductive DState where
  | idle
  | gotStart
  | gotCmd
  deriving DecidableEq, Repr

/-- Who moves next: the block, one of the two agents around it, or the reset input (00_scope.md R15, 10_state.md
R42; log 3). -/
inductive Agent where
  /-- The block performs its next step. -/
  | block
  /-- The host appends its next pending byte to `cmd_in`. -/
  | hostSend
  /-- The host removes the oldest byte of `rsp_out`. -/
  | hostTake
  /-- The converter interface offers its next group on the sample port. -/
  | converter
  /-- `rst` is asserted for one step. -/
  | rst
  deriving DecidableEq, Repr

/-- The TriggerConfig and the trigger flags (10_state.md R22–R30). -/
structure Trig where
  /-- R23 -/
  enabled : Bool
  /-- R24 -/
  armed : Bool
  /-- R25 -/
  triggered : Bool
  /-- R26 -/
  above : Bool
  /-- R27 -/
  edge : Edge
  /-- R28 -/
  channel : Chan
  /-- R29 -/
  level : Word
  /-- R30 -/
  levelStage : Nibble
  deriving DecidableEq, Repr

/-- The ring buffer's storage (20_memory.md R45): one whole entry per index, as index and entry pairs, indices
strictly rising, an index listed exactly when a PUSH has written it since the last reset (log 6). -/
abbrev Memory := List (Nat × Sample)

/-- The canonical form of the storage: the indices strictly rise. An unlisted slot holds no known entry, so no
listed entry can equal what an unlisted slot holds (log 6). -/
def Memory.wf : Memory → Bool
  | [] => true
  | [_] => true
  | (i, _) :: (j, e) :: rest => decide (i < j) && Memory.wf ((j, e) :: rest)

/-- The machine: the block's state, field by field as 10_state.md lists it, then the sample port, then the
model's own fields. -/
structure State where
  /-- R19 -/
  phase : Phase
  /-- R19 -/
  sidx : Chan
  /-- R20 -/
  grp : Group
  /-- R21 -/
  mask : Mask
  /-- R22–R30 -/
  trig : Trig
  /-- R34 -/
  buf : Memory
  /-- R35 -/
  head : Nat
  /-- R36 -/
  tail : Nat
  /-- R37 -/
  count : Nat
  /-- R38 -/
  dropCount : BitVec 16
  /-- R39 -/
  dstate : DState
  /-- R40 -/
  dcmd : Byte
  /-- R41, oldest first -/
  cmdIn : List Byte
  /-- R41, oldest first -/
  rspOut : List Byte
  /-- The groups offered on the sample port, oldest first (R43; log 4). -/
  smpIn : List Group
  /-- The parameters; no step writes them (00_scope.md R10; log 1). -/
  cfg : Config.Params
  /-- The bytes the host has yet to append, before it goes on with `hostAgain` (log 4). -/
  hostPending : List Byte
  /-- The bytes the host appends over and over once `hostPending` is used up; none if it then stops (log 4). -/
  hostAgain : List Byte
  /-- The bytes the host has removed from `rsp_out`, oldest first (log 4). -/
  hostReceived : List Byte
  /-- The groups the converter interface has yet to offer, before it goes on with `convAgain` (log 4). -/
  convPending : List Group
  /-- The groups it offers over and over once `convPending` is used up; none if it then stops (log 4). -/
  convAgain : List Group
  /-- Who moves in the next steps, before the turns go on with `schedAgain` (log 3). -/
  sched : List Agent
  /-- The turns that repeat forever once `sched` is used up; when both are empty the block moves (log 3). -/
  schedAgain : List Agent
  /-- The counter of the free values: the resets since State.reset (log 7). -/
  resetEpoch : Nat
  deriving DecidableEq, Repr

/-- Why a step stops. No state the block can reach stops so (60_exceptions.md R141: it raises no exception); both
are SAFE, and the obligation `NoStepStopsInASoundState` says that no step of a sound state raises one (log 8). -/
inductive Fault where
  /-- PUSH or POP met an index outside 0..CAP−1, an address that does not exist (20_memory.md R45). Safe. -/
  | ringIndex (i : Nat)
  /-- POP met an empty buffer, against its precondition (43_ring_buffer.md R120). Safe. -/
  | popEmpty
  deriving DecidableEq, Repr

/-- Why an instruction has no meaning. -/
inductive Refusal where
  /-- Raised by exec's arm of an instruction without a meaning; no arm raises it. Safe. -/
  | notModelled (mnemonic : String)
  deriving DecidableEq, Repr

/-- The state after reset under given parameters (70_reset_and_hazards.md R155). `grp` has no value in the spec:
DESIGN CHOICE 0x0000 each (log 5). No slot of the buffer is written, so each reads as a free value (log 6). No
byte and no group waits at the boundary, and no agent is scheduled (logs 3, 4). -/
def State.resetOf (p : Config.Params) : State where
  phase := .cmd
  sidx := 0#2
  grp := ⟨0#16, 0#16, 0#16, 0#16⟩
  mask := p.maskReset
  trig :=
    { enabled := false, armed := false, triggered := false, above := false
      edge := .rising, channel := 0#2, level := 0x0000#16, levelStage := 0x0#4 }
  buf := []
  head := 0
  tail := 0
  count := 0
  dropCount := 0#16
  dstate := .idle
  dcmd := 0x00#8
  cmdIn := []
  rspOut := []
  smpIn := []
  cfg := p
  hostPending := []
  hostAgain := []
  hostReceived := []
  convPending := []
  convAgain := []
  sched := []
  schedAgain := []
  resetEpoch := 0

/-- The machine right after reset, with the spec's default parameters (00_scope.md R7–R9; log 1). -/
def State.reset : State := State.resetOf Config.Params.default

end Sys2Proof.Machine
end

