-- ==== Sys2Proof/Machine/Operands.lean ====
section
/-! DEFINITION. The operand forms and the arithmetic of the block: signed codes, thresholds, level assembly, mask
bits, the words of a group, the 19-bit entry layout, and the informative voltages. -/

namespace Sys2Proof.Machine

/-- `sint16(v)` (00_scope.md R11). -/
def sint16 (w : Word) : Int := if w.getLsbD 15 then (w.toNat : Int) - 65536 else w.toNat

/-- `hi = L + HYST_CODE` in ℤ (42_trigger_engine.md R100). -/
def hiThreshold (hyst : Nat) (level : Word) : Int := sint16 level + hyst

/-- `lo = L − HYST_CODE` in ℤ (42_trigger_engine.md R100). -/
def loThreshold (hyst : Nat) (level : Word) : Int := sint16 level - hyst

/-- `FS_V`, informative (00_scope.md R9). -/
def fullScaleVolts : Rat := 10

/-- `volts(s) = s × FS_V / 32768`, informative: no step reads it (00_scope.md R14). -/
def volts (w : Word) : Rat := (sint16 w : Rat) * fullScaleVolts / 32768

/-- The level LVLLO commits: `{level_stage[3:0], n[3:0], 0x00}` (30_encoding.md R66). -/
def levelOf (stage n : Nibble) : Word := stage ++ n ++ 0x00#8

/-- `m[c]` (00_scope.md R11). -/
def maskBit (m : Mask) (c : Chan) : Bool := m.getLsbD c.toNat

/-- `m[c] <- 1`. -/
def maskSet (m : Mask) (c : Chan) : Mask := m ||| (1#4 <<< c.toNat)

/-- `m[c] <- 0`. -/
def maskClear (m : Mask) (c : Chan) : Mask := m &&& ~~~(1#4 <<< c.toNat)

/-- `popcount(m)` (00_scope.md R11). -/
def popcount (m : Mask) : Nat :=
  (m.getLsbD 0).toNat + (m.getLsbD 1).toNat + (m.getLsbD 2).toNat + (m.getLsbD 3).toNat

/-- The mask from which CHEN sets its bit: full pair {0,1} evicts 0, else full pair {2,3} evicts 2, else a mask of
one channel per pair evicts the partner of a channel not yet enabled (41_channel_gate.md R95). -/
def maskEvict (m : Mask) (c : Chan) : Mask :=
  if maskBit m 0#2 && maskBit m 1#2 then maskClear m 0#2
  else if maskBit m 2#2 && maskBit m 3#2 then maskClear m 2#2
  else if decide (popcount m = 2) && !maskBit m c then maskClear m (c ^^^ 1#2)
  else m

/-- The raw word of a channel in a group, `grp[c]` (10_state.md R20). -/
def groupWord (g : Group) (c : Chan) : Word :=
  match c.toNat with
  | 0 => g.w0
  | 1 => g.w1
  | 2 => g.w2
  | _ => g.w3

/-- `ceil(log2(n))` for `n ≥ 1` (00_scope.md R7). -/
def ceilLog2 (n : Nat) : Nat := if n ≤ 1 then 0 else (n - 1).log2 + 1

/-- `IDXW`, the width of `head` and `tail` (00_scope.md R7, 10_state.md R35, R36). -/
def idxWidth (cap : Nat) : Nat := ceilLog2 cap

/-- The width of `count`, which takes the values 0..CAP (00_scope.md R7, 10_state.md R37). -/
def countWidth (cap : Nat) : Nat := ceilLog2 (cap + 1)

/-- The channels in the fixed order of the SMP phase (44_acquisition_cycle.md R129). -/
def channels : List Chan := [0#2, 1#2, 2#2, 3#2]

/-- The 19-bit entry `{mk, ch[1:0], raw[15:0]}` (10_state.md R33). -/
def sampleBits (e : Sample) : BitVec 19 := BitVec.ofBool e.mark ++ e.ch ++ e.raw

/-- The sample of a 19-bit entry (10_state.md R33). -/
def sampleOfBits (b : BitVec 19) : Sample := ⟨b.getLsbD 18, b.extractLsb' 16 2, b.extractLsb' 0 16⟩

/-- The code of a phase (10_state.md R19). -/
def Phase.code : Phase → BitVec 3
  | .cmd => 0#3
  | .waitSmp => 1#3
  | .smp => 2#3
  | .drainCheck => 3#3
  | .drain => 4#3
  | .delay => 5#3

/-- The code of a decoder state (10_state.md R39). -/
def DState.code : DState → BitVec 2
  | .idle => 0#2
  | .gotStart => 1#2
  | .gotCmd => 2#2

end Sys2Proof.Machine
end

