-- ==== Sys2Proof/Machine/Flags.lean ====
section
/-! DEFINITION. The trigger flags: the hysteresis flag, the edge event, the fire, the end of a drain, and the engine
state they make up (42_trigger_engine.md R110–R116, 44_acquisition_cycle.md R135, 10_state.md R31). -/

namespace Sys2Proof.Machine

/-- `above` after EVAL of a word, both comparisons strict (42_trigger_engine.md R111). -/
def aboveNext (hyst : Nat) (t : Trig) (w : Word) : Bool :=
  if !t.above && decide (hiThreshold hyst t.level < sint16 w) then true
  else if t.above && decide (sint16 w < loThreshold hyst t.level) then false
  else t.above

/-- `edge_event`: the flag's transition matches the configured edge (42_trigger_engine.md R111). -/
def edgeEvent (e : Edge) (old new : Bool) : Bool :=
  match e with
  | .rising => !old && new
  | .falling => old && !new

/-- EVAL's result bit, the sample's trigger marker (42_trigger_engine.md R111, R115). -/
def evalFires (hyst : Nat) (t : Trig) (w : Word) : Bool :=
  edgeEvent t.edge t.above (aboveNext hyst t w) && t.armed

/-- The flags after EVAL: `above` is kept up to date, and a fire sets `triggered` and clears `armed`
(42_trigger_engine.md R111). -/
def evalTrig (hyst : Nat) (t : Trig) (w : Word) : Trig :=
  { t with
    above := aboveNext hyst t w
    triggered := t.triggered || evalFires hyst t w
    armed := t.armed && !evalFires hyst t w }

/-- Whether EVAL is called for a sample of channel c: the trigger is enabled and watches c (the channel's mask bit
is tested before, by SAMPLE: 42_trigger_engine.md R110, 44_acquisition_cycle.md R130). -/
def evaluates (t : Trig) (c : Chan) : Bool := t.enabled && decide (c = t.channel)

/-- The marker of a sample: EVAL's result, 0 where EVAL is not called (42_trigger_engine.md R115). -/
def sampleMark (hyst : Nat) (t : Trig) (c : Chan) (w : Word) : Bool :=
  evaluates t c && evalFires hyst t w

/-- The flags after a sample of an enabled channel (44_acquisition_cycle.md R130). -/
def sampleTrig (hyst : Nat) (t : Trig) (c : Chan) (w : Word) : Trig :=
  if evaluates t c then evalTrig hyst t w else t

/-- END_OF_DRAIN: `triggered <- 0`, then `armed <- enabled` (44_acquisition_cycle.md R135). -/
def endOfDrain (t : Trig) : Trig := { t with triggered := false, armed := t.enabled }

/-- The engine states the source names (10_state.md R31). -/
inductive EngineState where
  | disarmed
  | armed
  | fired
  deriving DecidableEq, Repr

/-- FIRED if triggered, else ARMED if armed, else DISARMED (10_state.md R31). -/
def engineState (t : Trig) : EngineState :=
  if t.triggered then .fired else if t.armed then .armed else .disarmed

/-- The flags after evaluating a sequence of words (42_trigger_engine.md R112, R113: "a sequence of evaluated
samples"). -/
def evalSeq (hyst : Nat) : Trig → List Word → Trig
  | t, [] => t
  | t, w :: ws => evalSeq hyst (evalTrig hyst t w) ws

/-- The markers EVAL returns along a sequence of words. -/
def evalMarks (hyst : Nat) : Trig → List Word → List Bool
  | _, [] => []
  | t, w :: ws => evalFires hyst t w :: evalMarks hyst (evalTrig hyst t w) ws

end Sys2Proof.Machine
end

