-- ==== Sys2Proof/Machine/Ops.lean ====
section
/-! DEFINITION. The named operations of the block: the ring buffer (43_ring_buffer.md), the queues (10_state.md R41), EMIT
(40_protocol_codec.md R91), reset (70_reset_and_hazards.md R155), and the views of the ports (10_state.md R42–R44). The block takes no
exception and returns from none (60_exceptions.md R141, R150): the only entry that replaces its state is RESET. -/

namespace Sys2Proof.Machine

/-! ## The storage (20_memory.md R45) -/

/-- The entry listed at an index, if a PUSH has written one since the last reset. -/
def Memory.lookup : Memory → Nat → Option Sample
  | [], _ => none
  | (i, e) :: rest, k => if k = i then some e else Memory.lookup rest k

/-- What a slot reads as: the entry written there, or the free value of a slot nothing has written (log 6). The
first argument is the free-value counter. -/
def Memory.read (epoch : Nat) (m : Memory) (k : Nat) : Sample :=
  match Memory.lookup m k with
  | some e => e
  | none => Config.freeEntry epoch k

/-- `buf[k] <- e`, keeping the indices strictly rising. -/
def Memory.write : Memory → Nat → Sample → Memory
  | [], k, e => [(k, e)]
  | (i, d) :: rest, k, e =>
    if k < i then (k, e) :: (i, d) :: rest
    else if k = i then (k, e) :: rest
    else (i, d) :: Memory.write rest k e

/-- Read one slot of the machine's buffer. -/
def readSlot (s : State) (k : Nat) : Sample := Memory.read s.resetEpoch s.buf k

/-- The index of the k-th live slot: `(tail + k) mod CAP` (43_ring_buffer.md R122). -/
def liveIndex (s : State) (k : Nat) : Nat := (s.tail + k) % s.cfg.cap

/-- The unread entries, oldest first (43_ring_buffer.md R122). -/
def liveEntries (s : State) : List Sample := (List.range s.count).map (fun k => readSlot s (liveIndex s k))

/-- What an agent works through next: what is pending or, once that is used up, what repeats (logs 3, 4). -/
def refill {α : Type} : List α → List α → List α
  | [], again => again
  | a :: rest, _ => a :: rest

/-- Continue with the result of an operation, unless it stopped. -/
def andThen {α β : Type} (o : Host.Outcome α Fault Refusal) (f : α → Host.Outcome β Fault Refusal) :
    Host.Outcome β Fault Refusal :=
  match o with
  | .next a => f a
  | .fault r => .fault r
  | .refused r => .refused r

/-! ## The ring buffer (43_ring_buffer.md) -/

/-- `sat_16(d + 1)` (43_ring_buffer.md R118). -/
def satSucc (d : BitVec 16) : BitVec 16 := if d = 0xFFFF#16 then d else d + 1#16

/-- PUSH(e): drop-newest, a full buffer only counts the drop (43_ring_buffer.md R118). -/
def push (e : Sample) (s : State) : Host.Outcome State Fault Refusal :=
  if s.count = s.cfg.cap then .next { s with dropCount := satSucc s.dropCount }
  else if s.cfg.cap ≤ s.head then .fault (.ringIndex s.head)
  else .next
    { s with
      buf := Memory.write s.buf s.head e
      head := (s.head + 1) % s.cfg.cap
      count := s.count + 1 }

/-- POP(): the oldest entry and the state without it (43_ring_buffer.md R120). -/
def pop (s : State) : Host.Outcome (Sample × State) Fault Refusal :=
  if s.count = 0 then .fault .popEmpty
  else if s.cfg.cap ≤ s.tail then .fault (.ringIndex s.tail)
  else .next (readSlot s s.tail, { s with tail := (s.tail + 1) % s.cfg.cap, count := s.count - 1 })

/-- The pushes of a list of entries one after another, with no POP in between (43_ring_buffer.md R123). -/
def pushAll : List Sample → State → Host.Outcome State Fault Refusal
  | [], s => .next s
  | e :: es, s => andThen (push e s) (pushAll es)

/-! ## The queues and EMIT -/

/-- Whether a queue of a given depth (`none` is unbounded) that holds `used` bytes has room for `n` more
(00_scope.md R9, 10_state.md R41). -/
def room (depth : Option Nat) (used n : Nat) : Bool :=
  match depth with
  | none => true
  | some d => decide (used + n ≤ d)

/-- Whether `rsp_out` has room for n bytes (40_protocol_codec.md R91). -/
def rspRoom (s : State) (n : Nat) : Bool := room s.cfg.rspDepth s.rspOut.length n

/-- Whether `cmd_in` has room for n bytes (10_state.md R41). -/
def cmdRoom (s : State) (n : Nat) : Bool := room s.cfg.cmdDepth s.cmdIn.length n

/-- EMIT of a sample: the whole frame is appended, or the state stays as it is (a hold: 40_protocol_codec.md R91,
00_scope.md R12; log 2). -/
def emit (e : Sample) (s : State) : State :=
  if rspRoom s (frameLen e.mark) then { s with rspOut := s.rspOut ++ encodeFrame e } else s

/-! ## RESET -/

/-- RESET in the middle of a run (70_reset_and_hazards.md R155, R157): every field of the block at its reset value,
`grp` and the buffer's slots at free values of their own (log 7), both queues empty; what the host and the
converter interface hold stays (log 20). -/
def takeReset (s : State) : State :=
  { State.resetOf s.cfg with
    grp :=
      ⟨Config.freeGrpWord (s.resetEpoch + 1) 0#2, Config.freeGrpWord (s.resetEpoch + 1) 1#2,
       Config.freeGrpWord (s.resetEpoch + 1) 2#2, Config.freeGrpWord (s.resetEpoch + 1) 3#2⟩
    smpIn := s.smpIn
    hostPending := s.hostPending
    hostAgain := s.hostAgain
    hostReceived := s.hostReceived
    convPending := s.convPending
    convAgain := s.convAgain
    sched := s.sched
    schedAgain := s.schedAgain
    resetEpoch := s.resetEpoch + 1 }

/-! ## The ports (10_state.md R42–R44): views, free of side effects -/

/-- `cmd_ready`: a command byte can be taken (R41, R42). -/
def cmdReady (s : State) : Bool := cmdRoom s 1

/-- `rsp_valid` (R42). -/
def rspValid (s : State) : Bool := !s.rspOut.isEmpty

/-- `rsp_data`, while `rsp_valid` (R42). -/
def rspData (s : State) : Option Byte := s.rspOut.head?

/-- `smp_ready`: only in WAIT_SMP (R43). -/
def smpReady (s : State) : Bool := decide (s.phase = .waitSmp)

/-- The `status` port's view (R44), for a capacity: `head`, `tail` and `count` in the widths of 00_scope.md R7. -/
structure Status (cap : Nat) where
  mask : Mask
  enabled : Bool
  armed : Bool
  triggered : Bool
  above : Bool
  edge : Bool
  channel : Chan
  level : Word
  levelStage : Nibble
  count : BitVec (countWidth cap)
  head : BitVec (idxWidth cap)
  tail : BitVec (idxWidth cap)
  dropCount : BitVec 16
  phase : BitVec 3
  dstate : BitVec 2
  deriving DecidableEq, Repr

/-- Reading the `status` port (R44). -/
def status (s : State) : Status s.cfg.cap where
  mask := s.mask
  enabled := s.trig.enabled
  armed := s.trig.armed
  triggered := s.trig.triggered
  above := s.trig.above
  edge := s.trig.edge.toBit
  channel := s.trig.channel
  level := s.trig.level
  levelStage := s.trig.levelStage
  count := BitVec.ofNat _ s.count
  head := BitVec.ofNat _ s.head
  tail := BitVec.ofNat _ s.tail
  dropCount := s.dropCount
  phase := s.phase.code
  dstate := s.dstate.code

end Sys2Proof.Machine
end

