-- ==== Sys2Proof/Machine/Codec.lean ====
section
/-! DEFINITION. The codec's instructions: CMDNOP, and the emission of the two response frames
(40_protocol_codec.md R86, R91). -/

namespace Sys2Proof.Machine

/-- CMDNOP k, v: no state change (40_protocol_codec.md R86). -/
def execCmdnop (_ _ : Byte) (s : State) : Host.Outcome State Fault Refusal := .next s

/-- DATA c, raw: EMIT of an unmarked sample (40_protocol_codec.md R91; log 9). -/
def execData (c : Chan) (raw : Word) (s : State) : Host.Outcome State Fault Refusal :=
  .next (emit ⟨false, c, raw⟩ s)

/-- DATAMK c, raw: EMIT of a marked sample (40_protocol_codec.md R91; log 9). -/
def execDatamk (c : Chan) (raw : Word) (s : State) : Host.Outcome State Fault Refusal :=
  .next (emit ⟨true, c, raw⟩ s)

end Sys2Proof.Machine
end

