-- ==== Sys2Proof/Machine/Gate.lean ====
section
/-! DEFINITION. The channel-gate commands (41_channel_gate.md). -/

namespace Sys2Proof.Machine

/-- CHEN c (41_channel_gate.md R95). -/
def execChen (c : Chan) (s : State) : Host.Outcome State Fault Refusal :=
  .next { s with mask := maskSet (maskEvict s.mask c) c }

/-- CHDIS c (41_channel_gate.md R96). -/
def execChdis (c : Chan) (s : State) : Host.Outcome State Fault Refusal :=
  .next { s with mask := maskClear s.mask c }

end Sys2Proof.Machine
end

