-- ==== Sys2Proof/Machine/Trigger.lean ====
section
/-! DEFINITION. The trigger-configuration commands (42_trigger_engine.md R101–R109). -/

namespace Sys2Proof.Machine

/-- TRIGON (42_trigger_engine.md R101). -/
def execTrigon (s : State) : Host.Outcome State Fault Refusal :=
  .next { s with trig := { s.trig with enabled := true, armed := true, triggered := false } }

/-- TRIGOFF (42_trigger_engine.md R102). -/
def execTrigoff (s : State) : Host.Outcome State Fault Refusal :=
  .next { s with trig := { s.trig with enabled := false, armed := false } }

/-- TRIGCH c (42_trigger_engine.md R104). -/
def execTrigch (c : Chan) (s : State) : Host.Outcome State Fault Refusal :=
  .next { s with trig := { s.trig with channel := c } }

/-- LVLHI n (42_trigger_engine.md R105). -/
def execLvlhi (n : Nibble) (s : State) : Host.Outcome State Fault Refusal :=
  .next { s with trig := { s.trig with levelStage := n } }

/-- LVLLO n (42_trigger_engine.md R106). -/
def execLvllo (n : Nibble) (s : State) : Host.Outcome State Fault Refusal :=
  .next { s with trig := { s.trig with level := levelOf s.trig.levelStage n } }

/-- EDGE r (42_trigger_engine.md R107). -/
def execEdge (r : Edge) (s : State) : Host.Outcome State Fault Refusal :=
  .next { s with trig := { s.trig with edge := r } }

/-- FORCE (42_trigger_engine.md R109). -/
def execForce (s : State) : Host.Outcome State Fault Refusal :=
  .next { s with trig := { s.trig with triggered := true } }

/-- TRIGRSV, sub-commands 6 and 7: no state change (42_trigger_engine.md R103). -/
def execTrigrsv6_7 (_ : Nibble) (s : State) : Host.Outcome State Fault Refusal := .next s

/-- TRIGRSV, sub-commands 8 to 15: no state change (42_trigger_engine.md R103). -/
def execTrigrsv8_15 (_ : Nibble) (s : State) : Host.Outcome State Fault Refusal := .next s

end Sys2Proof.Machine
end

