-- ==== Sys2Proof/Machine/Dispatch.lean ====
section
/-! DEFINITION. The dispatch: one arm per constructor of Instr (40_protocol_codec.md R85, R91). -/

namespace Sys2Proof.Machine

def exec (i : Instr) (s : State) : Host.Outcome State Fault Refusal :=
  match i with
  | .chen c => Sys2Proof.Machine.execChen c s
  | .chdis c => Sys2Proof.Machine.execChdis c s
  | .trigon => Sys2Proof.Machine.execTrigon s
  | .trigoff => Sys2Proof.Machine.execTrigoff s
  | .trigch c => Sys2Proof.Machine.execTrigch c s
  | .lvlhi n => Sys2Proof.Machine.execLvlhi n s
  | .lvllo n => Sys2Proof.Machine.execLvllo n s
  | .edge r => Sys2Proof.Machine.execEdge r s
  | .force => Sys2Proof.Machine.execForce s
  | .trigrsv6_7 v => Sys2Proof.Machine.execTrigrsv6_7 v s
  | .trigrsv8_15 v => Sys2Proof.Machine.execTrigrsv8_15 v s
  | .cmdnop k v => Sys2Proof.Machine.execCmdnop k v s
  | .data c raw => Sys2Proof.Machine.execData c raw s
  | .datamk c raw => Sys2Proof.Machine.execDatamk c raw s

end Sys2Proof.Machine
end

