-- ==== Sys2Proof/Machine/Sequencer.lean ====
section
/-! DEFINITION. The sequencer (44_acquisition_cycle.md): the decoder step, SAMPLE, and the step of each phase. A step that holds
answers the state it was given (00_scope.md R12, 60_exceptions.md R145, R146; log 2). -/

namespace Sys2Proof.Machine

/-! ## CMD (R127) and DECODE_BYTE (40_protocol_codec.md R84) -/

/-- DECODE_BYTE of the byte `b`, already popped: in IDLE it starts a frame or is skipped (R87), in GOT_START it is
the command byte, in GOT_CMD it is the value byte and the command executes (40_protocol_codec.md R84, R85). -/
def decodeByte (b : Byte) (s : State) : Host.Outcome State Fault Refusal :=
  match s.dstate with
  | .idle => if b = frameStart then .next { s with dstate := .gotStart } else .next s
  | .gotStart => .next { s with dcmd := b, dstate := .gotCmd }
  | .gotCmd => exec (decodeCommand s.dcmd b) { s with dstate := .idle }

/-- The CMD step (44_acquisition_cycle.md R127). -/
def cmdStep (s : State) : Host.Outcome State Fault Refusal :=
  match s.cmdIn with
  | [] => .next { s with phase := .waitSmp }
  | b :: rest => decodeByte b { s with cmdIn := rest }

/-! ## WAIT_SMP (R128) -/

/-- The WAIT_SMP step: take the oldest offered group, or hold (44_acquisition_cycle.md R128). -/
def waitSmpStep (s : State) : Host.Outcome State Fault Refusal :=
  match s.smpIn with
  | [] => .next s
  | g :: rest => .next { s with smpIn := rest, grp := g, sidx := 0#2, phase := .smp }

/-! ## SMP (R129) and SAMPLE (R130) -/

/-- After a channel's word: the next channel, or DRAIN_CHECK after channel 3 (44_acquisition_cycle.md R129). -/
def advanceSidx (s : State) : State :=
  if s.sidx = 3#2 then { s with sidx := 0#2, phase := .drainCheck } else { s with sidx := s.sidx + 1#2 }

/-- The sample SAMPLE makes of a channel's word, with the marker EVAL returns (44_acquisition_cycle.md R130). -/
def sampleOf (s : State) (c : Chan) (w : Word) : Sample :=
  ⟨sampleMark s.cfg.hystCode s.trig c w, c, w⟩

/-- PUSH where the trigger is enabled (43_ring_buffer.md R119). -/
def pushIfEnabled (e : Sample) (s : State) : Host.Outcome State Fault Refusal :=
  if s.trig.enabled then push e s else .next s

/-- SAMPLE(c, w) of an enabled channel once `rsp_out` has room: EVAL, PUSH, EMIT, in that order; the emission is
the response instruction DATA or DATAMK (44_acquisition_cycle.md R130, R131). -/
def sample (c : Chan) (w : Word) (s : State) : Host.Outcome State Fault Refusal :=
  andThen (pushIfEnabled (sampleOf s c w) { s with trig := sampleTrig s.cfg.hystCode s.trig c w })
    (exec (responseOf (sampleOf s c w)))

/-- The SMP step of the channel `sidx`: the word of a disabled channel is discarded; the whole step holds while
`rsp_out` lacks room for the frame (44_acquisition_cycle.md R129, R130). -/
def smpStep (s : State) : Host.Outcome State Fault Refusal :=
  if !maskBit s.mask s.sidx then .next (advanceSidx s)
  else if !rspRoom s (frameLen (sampleOf s s.sidx (groupWord s.grp s.sidx)).mark) then .next s
  else andThen (sample s.sidx (groupWord s.grp s.sidx) s) fun t => .next (advanceSidx t)

/-! ## DRAIN_CHECK (R133), DRAIN (R134), DELAY (R137) -/

/-- The DRAIN_CHECK step (44_acquisition_cycle.md R133). -/
def drainCheckStep (s : State) : Host.Outcome State Fault Refusal :=
  if s.trig.triggered && decide (0 < s.count) then .next { s with phase := .drain }
  else .next { s with phase := .delay }

/-- After an entry was drained: the step that empties the buffer ends the drain (44_acquisition_cycle.md R134, R135). -/
def finishDrain (s : State) : State :=
  if s.count = 0 then { s with trig := endOfDrain s.trig, phase := .delay } else s

/-- The DRAIN step: POP and EMIT of one entry, or a hold while `rsp_out` lacks room for its frame
(44_acquisition_cycle.md R134). -/
def drainStep (s : State) : Host.Outcome State Fault Refusal :=
  andThen (pop s) fun p =>
    if !rspRoom s (frameLen p.1.mark) then .next s
    else andThen (exec (responseOf p.1) p.2) fun t => .next (finishDrain t)

/-- The DELAY step (44_acquisition_cycle.md R137). -/
def delayStep (s : State) : Host.Outcome State Fault Refusal := .next { s with phase := .cmd }

/-- One step of the block: the step of its phase (44_acquisition_cycle.md R126). -/
def blockStep (s : State) : Host.Outcome State Fault Refusal :=
  match s.phase with
  | .cmd => cmdStep s
  | .waitSmp => waitSmpStep s
  | .smp => smpStep s
  | .drainCheck => drainCheckStep s
  | .drain => drainStep s
  | .delay => delayStep s

/-- `n` steps of the block alone. -/
def blockSteps : Nat → State → Host.Outcome State Fault Refusal
  | 0, s => .next s
  | n + 1, s => andThen (blockStep s) (blockSteps n)

/-- A list of instructions executed one after another (40_protocol_codec.md R88). -/
def execAll : List Instr → State → Host.Outcome State Fault Refusal
  | [], s => .next s
  | i :: is, s => andThen (exec i s) (execAll is)

end Sys2Proof.Machine
end

