-- ==== Sys2Proof/Machine/Environment.lean ====
section
/-! DEFINITION. The agents around the block (00_scope.md R15) and the turn of each. An agent that cannot move holds:
its turn changes nothing and loses nothing (10_state.md R41; logs 3, 4). -/

namespace Sys2Proof.Machine

/-- The host appends its next pending byte to `cmd_in`, or holds while the queue is full (10_state.md R41). -/
def hostSend (s : State) : State :=
  match refill s.hostPending s.hostAgain with
  | [] => s
  | b :: rest => if cmdRoom s 1 then { s with cmdIn := s.cmdIn ++ [b], hostPending := rest } else s

/-- The host removes the oldest byte of `rsp_out` (10_state.md R41). -/
def hostTake (s : State) : State :=
  match s.rspOut with
  | [] => s
  | b :: rest => { s with rspOut := rest, hostReceived := s.hostReceived ++ [b] }

/-- The converter interface offers its next group on the sample port (10_state.md R43). -/
def converterOffer (s : State) : State :=
  match refill s.convPending s.convAgain with
  | [] => s
  | g :: rest => { s with smpIn := s.smpIn ++ [g], convPending := rest }

/-- The turn of an agent. -/
def agentStep (a : Agent) (s : State) : Host.Outcome State Fault Refusal :=
  match a with
  | .block => blockStep s
  | .hostSend => .next (hostSend s)
  | .hostTake => .next (hostTake s)
  | .converter => .next (converterOffer s)
  | .rst => .next (takeReset s)

/-- The next turn: the first scheduled agent's, or the block's where none is scheduled (log 3). -/
def turnStep (s : State) : Host.Outcome State Fault Refusal :=
  match refill s.sched s.schedAgain with
  | [] => blockStep s
  | a :: rest => agentStep a { s with sched := rest }

/-! ## Placing an instruction where the next step finds it (log 12) -/

/-- A command frame whose start and command bytes the decoder has consumed, its value byte next in `cmd_in`; bytes
that are no frame go to `cmd_in` whole, for the decoder in IDLE (40_protocol_codec.md R84). -/
def placeCommand (bs : List Byte) (s : State) : State :=
  match bs with
  | [b0, cmd, v] =>
    if b0 = frameStart then
      { s with sched := .block :: s.sched, phase := .cmd, dstate := .gotCmd, dcmd := cmd, cmdIn := v :: s.cmdIn.drop 1 }
    else { s with sched := .block :: s.sched, phase := .cmd, dstate := .idle, cmdIn := bs ++ s.cmdIn.drop 3 }
  | _ => s

/-- A sample in the ring buffer's oldest slot, with the DRAIN step next: the step that emits it as its response
frame (44_acquisition_cycle.md R134). -/
def placeSample (e : Sample) (s : State) : State :=
  if s.count = 0 then
    { s with
      sched := .block :: s.sched, phase := .drain, buf := Memory.write s.buf s.tail e
      head := (s.tail + 1) % s.cfg.cap, count := 1 }
  else { s with sched := .block :: s.sched, phase := .drain, buf := Memory.write s.buf s.tail e }

/-- An instruction's table word placed where the next step runs it (log 12). -/
def placeWord (s : State) (nbits w : Nat) : State :=
  match decodeTableWord nbits w with
  | some (.data c raw) => placeSample ⟨false, c, raw⟩ s
  | some (.datamk c raw) => placeSample ⟨true, c, raw⟩ s
  | _ => placeCommand (tableBytes nbits w) s

end Sys2Proof.Machine
end

