-- ==== Sys2Proof/Machine/Step.lean ====
section
/-! DEFINITION. The machine's one step, and an instruction placed where the next step runs it. -/

namespace Sys2Proof.Machine

/-- One step: the next turn (00_scope.md R15, 44_acquisition_cycle.md R126; log 3). -/
def step (s : State) : Host.Outcome State Fault Refusal := turnStep s

/-- The state whose very next step runs the instruction of a table word (log 12). -/
def State.withFetchWord (s : State) (nbits w : Nat) : State := placeWord s nbits w

end Sys2Proof.Machine
end

