-- ==== Sys2Proof/Safety.lean ====
section
/-! DEFINITION. The terms claims are stated in: what a sound state is, whose turn a step is, and what the operations
of the ring buffer store and return. -/

namespace Sys2Proof.Machine

/-! ## Sound states -/

/-- The constraints on the parameters (00_scope.md R7, R9). -/
structure ParamsOk (p : Config.Params) : Prop where
  cap_pos : 1 ≤ p.cap
  maskReset_le : popcount p.maskReset ≤ 2
  cmdDepth_ge : ∀ d, p.cmdDepth = some d → 3 ≤ d
  rspDepth_ge : ∀ d, p.rspDepth = some d → 6 ≤ d

/-- The invariants of the reachable states: at most two channels (10_state.md R21), armed only if enabled (R32), legal
and consistent indices (R37), a canonical storage inside 0..CAP−1 (20_memory.md R45), every live slot written
(10_state.md R34), a drain only with entries and a trigger (44_acquisition_cycle.md R133, R134), queues within their
depths (10_state.md R41). -/
structure Inv (s : State) : Prop where
  params : ParamsOk s.cfg
  mask_le : popcount s.mask ≤ 2
  armed_enabled : s.trig.armed = true → s.trig.enabled = true
  mem_wf : Memory.wf s.buf = true
  mem_range : ∀ p ∈ s.buf, p.1 < s.cfg.cap
  head_lt : s.head < s.cfg.cap
  tail_lt : s.tail < s.cfg.cap
  count_le : s.count ≤ s.cfg.cap
  head_eq : s.head = (s.tail + s.count) % s.cfg.cap
  live_written : ∀ k, k < s.count → (Memory.lookup s.buf (liveIndex s k)).isSome = true
  drain_count : s.phase = .drain → 0 < s.count
  drain_triggered : s.phase = .drain → s.trig.triggered = true
  cmd_fits : cmdRoom s 0 = true
  rsp_fits : rspRoom s 0 = true

/-- How many unread entries carry the trigger marker. -/
def liveMarks (s : State) : Nat := (liveEntries s).countP (·.mark)

/-- At most one unread entry is marked, and one is only between the fire and the end of its drain, with the engine
disarmed and triggered (70_reset_and_hazards.md R166). -/
structure MarkInv (s : State) : Prop where
  marks_le : liveMarks s ≤ 1
  marked_phase : 0 < liveMarks s → s.phase = .smp ∨ s.phase = .drainCheck ∨ s.phase = .drain
  marked_armed : 0 < liveMarks s → s.trig.armed = false
  marked_triggered : 0 < liveMarks s → s.trig.triggered = true

/-- The reset values of 70_reset_and_hazards.md R155; it gives `grp` and the contents of `buf` none. -/
structure AtReset (s : State) : Prop where
  phase : s.phase = .cmd
  sidx : s.sidx = 0#2
  mask : s.mask = s.cfg.maskReset
  enabled : s.trig.enabled = false
  armed : s.trig.armed = false
  triggered : s.trig.triggered = false
  above : s.trig.above = false
  edge : s.trig.edge = .rising
  channel : s.trig.channel = 0#2
  level : s.trig.level = 0x0000#16
  levelStage : s.trig.levelStage = 0x0#4
  head : s.head = 0
  tail : s.tail = 0
  count : s.count = 0
  dropCount : s.dropCount = 0#16
  dstate : s.dstate = .idle
  dcmd : s.dcmd = 0x00#8
  cmdIn : s.cmdIn = []
  rspOut : s.rspOut = []

/-! ## Turns -/

/-- The turns to come: those scheduled or, once they are used up, those that repeat (log 3). -/
def turns (s : State) : List Agent := refill s.sched s.schedAgain

/-- The next step is the block's (log 3). -/
def BlockTurn (s : State) : Prop := turns s = [] ∨ (turns s).head? = some .block

/-- The next step asserts `rst`. -/
def RstTurn (s : State) : Prop := (turns s).head? = some .rst

/-- `n` steps of the machine. -/
def machineSteps : Nat → State → Host.Outcome State Fault Refusal
  | 0, s => .next s
  | n + 1, s => andThen (step s) (machineSteps n)

/-- The next step is the decoder's and executes instruction i: the value byte of i's frame is consumed in the CMD
phase (40_protocol_codec.md R84). -/
def Executes (s : State) (i : Instr) : Prop :=
  BlockTurn s ∧ s.phase = .cmd ∧ s.dstate = .gotCmd ∧
    ∃ v rest, s.cmdIn = v :: rest ∧ decodeCommand s.dcmd v = i

/-- The next step evaluates the trigger on a sample: the SMP step of the enabled, watched channel with the trigger
enabled (42_trigger_engine.md R110) and room for its frame. -/
def Evaluates (s : State) : Prop :=
  BlockTurn s ∧ s.phase = .smp ∧ maskBit s.mask s.sidx = true ∧ s.trig.enabled = true ∧
    s.sidx = s.trig.channel ∧
    rspRoom s (frameLen (sampleOf s s.sidx (groupWord s.grp s.sidx)).mark) = true

/-- The next step is the DRAIN step that empties the buffer (44_acquisition_cycle.md R134). -/
def EndsDrain (s : State) : Prop := BlockTurn s ∧ s.phase = .drain ∧ s.count = 1

/-- The bits of a value byte that are not ignored (30_encoding.md R63, R65; both bytes of a CMDNOP are its
operands: R77). -/
def usedBits (cmd v : Byte) : Byte :=
  if cmd = 0xFF#8 then 0x07#8
  else if cmd = 0xFE#8 then
    match (v.extractLsb' 0 4).toNat with
    | 0 => 0x1F#8
    | 1 => 0x3F#8
    | 2 => 0xFF#8
    | 3 => 0xFF#8
    | 4 => 0x1F#8
    | _ => 0x0F#8
  else 0xFF#8

/-! ## Histories of the ring buffer -/

/-- An operation on the ring buffer (43_ring_buffer.md R118, R120). -/
inductive BufOp where
  | push (e : Sample)
  | pop
  deriving DecidableEq, Repr

/-- A history of operations: the state after it, the entries PUSH stored (those it did not drop) in push order, and
the entries POP returned in order (43_ring_buffer.md R121). -/
def bufRun : List BufOp → State → Host.Outcome (State × List Sample × List Sample) Fault Refusal
  | [], s => .next (s, [], [])
  | .push e :: ops, s =>
    andThen (push e s) fun t =>
      andThen (bufRun ops t) fun r =>
        .next (r.1, (if s.count = s.cfg.cap then r.2.1 else e :: r.2.1), r.2.2)
  | .pop :: ops, s =>
    andThen (pop s) fun p =>
      andThen (bufRun ops p.2) fun r => .next (r.1, r.2.1, p.1 :: r.2.2)

/-! ## The output of one cycle (44_acquisition_cycle.md R140) -/

/-- The samples of the enabled channels of the latched group, in ascending channel order, each with the marker
SAMPLE computes for it. -/
def cycleSamples (s : State) : List Sample :=
  (channels.filter (fun c => maskBit s.mask c)).map (fun c => sampleOf s c (groupWord s.grp c))

/-- The bytes of a list of samples, each as its response frame. -/
def framesOf (es : List Sample) : List Byte := es.flatMap encodeFrame

end Sys2Proof.Machine
end

