-- ==== Sys2Proof/Certificates/Slice0/Obligations.lean ====
section
/-! DEFINITION. The statements for the provers, each formalising rules of spec/. A statement about every state is a
statement about every choice of the parameters (State.cfg) and every schedule of the agents (State.sched, State.schedAgain). -/

open Sys2Proof Sys2Proof.Machine

/-! ## Reset (70_reset_and_hazards.md) -/

/-- R155: asserting `rst` in any state puts every field at its reset value (`grp` and the slots of `buf` have none),
State.reset is such a state, and the first step after one is a CMD step, which goes on to WAIT_SMP because `cmd_in`
is empty. -/
def Obligations.ResetGivesSpecifiedValues : Prop :=
  AtReset State.reset ∧
  (∀ s : State, ∃ t, agentStep .rst s = .next t ∧ AtReset t ∧ t.cfg = s.cfg) ∧
  (∀ s : State, AtReset s → blockStep s = .next { s with phase := .waitSmp })

/-- R8, R9 with D25, D30: State.reset holds the spec's default parameters, which meet their constraints, and it is a
sound state; so is the state after reset under any legal parameters. The zero words of `grp` are the model's choice
(log 5) and the statement does not mention them. -/
def Obligations.ResetStatesAreSound : Prop :=
  State.reset.cfg.cap = 1000 ∧ State.reset.cfg.hystCode = 1638 ∧ State.reset.cfg.maskReset = 0b0000#4 ∧
  State.reset.cfg.cmdDepth = none ∧ State.reset.cfg.rspDepth = none ∧
  (∀ p : Config.Params, ParamsOk p → Inv (State.resetOf p) ∧ MarkInv (State.resetOf p)) ∧
  Inv State.reset ∧ MarkInv State.reset

/-! ## The whole machine -/

/-- R21, R32, R34, R37, R41: every step of every agent keeps the invariants of the reachable states. -/
def Obligations.EveryStepKeepsInvariant : Prop :=
  ∀ s t : State, Inv s → step s = .next t → Inv t

/-- R141: from a sound state every step answers a next state: no fault, no refusal; and in no state at all does a step
refuse an instruction. -/
def Obligations.NoStepStopsInASoundState : Prop :=
  (∀ s : State, Inv s → ∃ t, step s = .next t) ∧ (∀ (s : State) (r : Refusal), step s ≠ .refused r)

/-- R166: every step keeps that at most one unread entry is marked, and one only between a fire and the end of its
drain, with the engine disarmed and triggered. -/
def Obligations.EveryStepKeepsMarkInvariant : Prop :=
  ∀ s t : State, Inv s → MarkInv s → step s = .next t → MarkInv t

/-- R166: the frames of one drain are at most `5 × CAP + 1` bytes, 5001 for CAP = 1000. -/
def Obligations.DrainBurstIsBounded : Prop :=
  (∀ s : State, Inv s → MarkInv s → (framesOf (liveEntries s)).length ≤ 5 * s.cfg.cap + 1) ∧
  (∀ s : State, Inv s → MarkInv s → s.cfg.cap = 1000 → (framesOf (liveEntries s)).length ≤ 5001)

/-- R126, R19: a step of the block stays in its phase or goes to the next phase of the cycle; within SMP the channels
come in ascending order, from 0; DRAIN is entered only from DRAIN_CHECK. -/
def Obligations.PhasesFollowTheCycle : Prop :=
  ∀ s t : State, blockStep s = .next t →
    (s.phase = .cmd → t.phase = .cmd ∨ t.phase = .waitSmp) ∧
    (s.phase = .waitSmp → t = s ∨ (t.phase = .smp ∧ t.sidx = 0#2)) ∧
    (s.phase = .smp → t = s ∨
      (s.sidx ≠ 3#2 ∧ t.phase = .smp ∧ t.sidx.toNat = s.sidx.toNat + 1) ∨
      (s.sidx = 3#2 ∧ t.phase = .drainCheck ∧ t.sidx = 0#2)) ∧
    (s.phase = .drainCheck → t.phase = .drain ∨ t.phase = .delay) ∧
    (s.phase = .drain → t.phase = .drain ∨ t.phase = .delay) ∧
    (s.phase = .delay → t.phase = .cmd)

/-- R138: in a sound state the block is stuck in exactly two places: in WAIT_SMP with no group offered, and in SMP or
DRAIN with no room on the output queue for the next frame. A held step changes nothing (that it is a next state equal
to the old one is the model's choice, log 2). -/
def Obligations.BlockIsStuckExactlyWhereItHolds : Prop :=
  ∀ s : State, Inv s →
    (blockStep s = .next s ↔
      (s.phase = .waitSmp ∧ s.smpIn = []) ∨
      (s.phase = .smp ∧ maskBit s.mask s.sidx = true ∧
        rspRoom s (frameLen (sampleOf s s.sidx (groupWord s.grp s.sidx)).mark) = false) ∨
      (s.phase = .drain ∧ rspRoom s (frameLen (readSlot s s.tail).mark) = false))

/-- R55: the turn of the host or of the converter interface changes only the queues, the port and what the agents
hold (and never the parameters). -/
def Obligations.OtherAgentsChangeOnlyQueuesAndPort : Prop :=
  ∀ (a : Agent) (s : State), a = .hostSend ∨ a = .hostTake ∨ a = .converter →
    ∃ t, agentStep a s = .next t ∧
      t = { s with
        cmdIn := t.cmdIn, rspOut := t.rspOut, smpIn := t.smpIn
        hostPending := t.hostPending, hostReceived := t.hostReceived, convPending := t.convPending } ∧
      s.cmdIn <+: t.cmdIn ∧ s.smpIn <+: t.smpIn ∧ t.rspOut <:+ s.rspOut

/-- R52: whatever agent moves (but for a reset), the byte stream the host receives, followed by what waits in
`rsp_out`, grows by nothing or by one whole frame. -/
def Obligations.OutputStreamGrowsByWholeFrames : Prop :=
  ∀ s t : State, step s = .next t → ¬ RstTurn s →
    t.hostReceived ++ t.rspOut = s.hostReceived ++ s.rspOut ∨
    ∃ e : Sample, t.hostReceived ++ t.rspOut = s.hostReceived ++ s.rspOut ++ encodeFrame e

/-- R41, R53, R139: whatever agent moves (but for a reset), no command byte is lost, duplicated or reordered: the
bytes waiting in `cmd_in` followed by those the host has yet to append stay as they are; or lose their first byte,
which is taken by the block in the CMD phase; or, where the host had none left to append, go on with those it repeats
(log 4), which no step changes. -/
def Obligations.CommandStreamKeepsItsBytes : Prop :=
  ∀ s t : State, step s = .next t → ¬ RstTurn s →
    t.hostAgain = s.hostAgain ∧
    (s.cmdIn ++ s.hostPending = t.cmdIn ++ t.hostPending ∨
      (BlockTurn s ∧ s.phase = .cmd ∧ ∃ b, s.cmdIn ++ s.hostPending = b :: (t.cmdIn ++ t.hostPending)) ∨
      (s.hostPending = [] ∧ s.cmdIn ++ s.hostAgain = t.cmdIn ++ t.hostPending))

/-- R139: outside the CMD phase a step (but for a reset) takes no command byte and leaves the decoder alone; outside
WAIT_SMP (in DRAIN, say) it takes no sample group. -/
def Obligations.CommandsWaitOutsideTheCmdPhase : Prop :=
  ∀ s t : State, step s = .next t → ¬ RstTurn s →
    (s.phase ≠ .cmd → s.cmdIn <+: t.cmdIn ∧ t.dstate = s.dstate ∧ t.dcmd = s.dcmd) ∧
    (s.phase ≠ .waitSmp → s.smpIn <+: t.smpIn ∧ t.grp = s.grp)

/-- R21, R27, R28, R29, R30: but for a reset, the mask changes only when the block executes a CHEN or a CHDIS, the
edge, the channel, the level and the level stage only when it executes EDGE, TRIGCH, LVLLO and LVLHI; and no step at
all changes the parameters. -/
def Obligations.ConfigurationChangesOnlyByItsCommand : Prop :=
  ∀ s t : State, step s = .next t →
    t.cfg = s.cfg ∧
    (¬ RstTurn s →
      (t.mask ≠ s.mask → ∃ c, Executes s (.chen c) ∨ Executes s (.chdis c)) ∧
      (t.trig.edge ≠ s.trig.edge → ∃ r, Executes s (.edge r)) ∧
      (t.trig.channel ≠ s.trig.channel → ∃ c, Executes s (.trigch c)) ∧
      (t.trig.level ≠ s.trig.level → ∃ n, Executes s (.lvllo n)) ∧
      (t.trig.levelStage ≠ s.trig.levelStage → ∃ n, Executes s (.lvlhi n)))

/-- R23–R26: but for a reset, each trigger flag changes only where the spec lists a writer of it: `enabled` by TRIGON
and TRIGOFF; `armed` to 1 by TRIGON and the end of a drain, to 0 by TRIGOFF, a fire in EVAL and the end of a drain;
`triggered` to 1 by FORCE and a fire in EVAL, to 0 by TRIGON and the end of a drain; `above` by EVAL alone. -/
def Obligations.FlagsChangeOnlyByTheirWriters : Prop :=
  ∀ s t : State, step s = .next t → ¬ RstTurn s →
    (t.trig.enabled ≠ s.trig.enabled → Executes s .trigon ∨ Executes s .trigoff) ∧
    (s.trig.armed = false → t.trig.armed = true →
      Executes s .trigon ∨ (EndsDrain s ∧ s.trig.enabled = true)) ∧
    (s.trig.armed = true → t.trig.armed = false →
      Executes s .trigoff ∨ (Evaluates s ∧ evalFires s.cfg.hystCode s.trig (groupWord s.grp s.sidx) = true) ∨
      (EndsDrain s ∧ s.trig.enabled = false)) ∧
    (s.trig.triggered = false → t.trig.triggered = true →
      Executes s .force ∨ (Evaluates s ∧ evalFires s.cfg.hystCode s.trig (groupWord s.grp s.sidx) = true)) ∧
    (s.trig.triggered = true → t.trig.triggered = false → Executes s .trigon ∨ EndsDrain s) ∧
    (t.trig.above ≠ s.trig.above → Evaluates s)

/-- R124: no command changes the buffer: executing any command leaves every slot and `head`, `tail` and `count` as
they were; and entries leave the buffer only by POP in DRAIN or by reset. -/
def Obligations.CommandsKeepTheBuffer : Prop :=
  (∀ (i : Instr) (s : State), i.isCommand = true →
    ∃ t, exec i s = .next t ∧ t.buf = s.buf ∧ t.head = s.head ∧ t.tail = s.tail ∧ t.count = s.count ∧
      ∀ k, readSlot t k = readSlot s k) ∧
  (∀ s t : State, step s = .next t → t.count < s.count ∨ t.tail ≠ s.tail →
    RstTurn s ∨ (BlockTurn s ∧ s.phase = .drain))

/-- R38, R158: but for a reset, a step leaves `drop_count` or, where SMP pushes onto a full buffer, counts one more,
saturating at 0xFFFF. -/
def Obligations.DropCountOnlyCountsDrops : Prop :=
  ∀ s t : State, step s = .next t → ¬ RstTurn s →
    t.dropCount = s.dropCount ∨
    (BlockTurn s ∧ s.phase = .smp ∧ s.trig.enabled = true ∧ s.count = s.cfg.cap ∧
      t.dropCount.toNat = min 0xFFFF (s.dropCount.toNat + 1))

/-! ## Encoding (30_encoding.md, 40_protocol_codec.md) -/

/-- R77, R74: decoding the encoding of any well-formed instruction gives it back, with any bytes after it: a command
through the block's decoder, a response frame through the host's reader. -/
def Obligations.DecodeOfEncodeIsTheInstruction : Prop :=
  ∀ (i : Instr) (rest : List Byte), i.wellFormed = true →
    (i.isCommand = true → decode (encode i ++ rest) = .ok (i, rest)) ∧
    (i.isCommand = false → decodeResponse (encode i ++ rest) = .ok (i, rest))

/-- R81: decoding is unique: exactly one row of the opcode map applies to each frame that starts with 0xAA, it is the
row of the instruction the decoder answers, and that instruction is well-formed. -/
def Obligations.OpcodeMapIsUnambiguous : Prop :=
  ∀ cmd v : Byte,
    selectedMnemonics (frameWord 0xAA#8 cmd v) = [(decodeCommand cmd v).mnemonic] ∧
    (decodeCommand cmd v).wellFormed = true ∧ (decodeCommand cmd v).isCommand = true

/-- R67: two frames that differ only in ignored bits decode alike, so they have identical effects, and the canonical
encoding has every ignored bit 0 and every other bit as it was. -/
def Obligations.IgnoredBitsHaveNoEffect : Prop :=
  (∀ cmd v v' : Byte, v &&& usedBits cmd v = v' &&& usedBits cmd v →
    decodeCommand cmd v = decodeCommand cmd v' ∧
    ∀ s : State, exec (decodeCommand cmd v) s = exec (decodeCommand cmd v') s) ∧
  (∀ cmd v : Byte, encode (decodeCommand cmd v) = [0xAA#8, cmd, v &&& usedBits cmd v])

/-- Words written out from R70, R74 and R77: each decodes to the instruction it stands for, and a stray byte and a
short frame decode to none (a sanity check). -/
def Obligations.WrittenOutWordsDecode : Prop :=
  decodeTableWord 24 0xAAFF06 = some (.chen 2#2) ∧
  decodeTableWord 24 0xAAFF03 = some (.chdis 3#2) ∧
  decodeTableWord 24 0xAAFE10 = some .trigon ∧
  decodeTableWord 24 0xAAFEF1 = some (.trigch 3#2) ∧
  decodeTableWord 24 0xAAFE23 = some (.lvllo 2#4) ∧
  decodeTableWord 24 0xAA0123 = some (.cmdnop 0x01#8 0x23#8) ∧
  decodeTableWord 40 0xAA02123455 = some (.data 2#2 0x1234#16) ∧
  decodeTableWord 48 0xAA008000CC55 = some (.datamk 0#2 0x8000#16) ∧
  decode [0x13#8, 0xAA#8, 0xFF#8, 0x05#8] = .error (.notFrameStart 0x13#8) ∧
  decode [0xAA#8, 0xFF#8] = .error .truncated

/-- R90, R94: EncodeFrame: FRAME_START, the channel byte, the word most significant byte first, TRIGGER_MARK exactly
when the sample is marked, FRAME_END; 5 bytes or 6. A host aligned at a frame start recovers the sample:
`ch = byte1[1:0]`, `raw = {byte2, byte3}`, marked exactly when byte 4 is 0xCC, whatever bytes follow the frame. -/
def Obligations.EncodeFrameLayoutAndRoundTrip : Prop :=
  (∀ (c : Chan) (raw : Word),
    encodeFrame ⟨false, c, raw⟩ =
      [0xAA#8, c.zeroExtend 8, raw.extractLsb' 8 8, raw.extractLsb' 0 8, 0x55#8] ∧
    encodeFrame ⟨true, c, raw⟩ =
      [0xAA#8, c.zeroExtend 8, raw.extractLsb' 8 8, raw.extractLsb' 0 8, 0xCC#8, 0x55#8]) ∧
  (∀ e : Sample, (encodeFrame e).length = if e.mark then 6 else 5) ∧
  (∀ (e : Sample) (rest : List Byte),
    (∃ b1 b2 b3 b4 more, encodeFrame e ++ rest = 0xAA#8 :: b1 :: b2 :: b3 :: b4 :: more ∧
      b1.extractLsb' 0 2 = e.ch ∧ b2 ++ b3 = e.raw ∧ (b4 = 0xCC#8 ↔ e.mark = true)) ∧
    decodeResponse (encodeFrame e ++ rest) = .ok (responseOf e, rest))

/-- R33: the 19-bit entry: bit 18 the marker, bits 17–16 the channel, bits 15–0 the word; the layout loses nothing. -/
def Obligations.EntryLayoutIsLossless : Prop :=
  (∀ e : Sample, (sampleBits e).getLsbD 18 = e.mark ∧ (sampleBits e).extractLsb' 16 2 = e.ch ∧
    (sampleBits e).extractLsb' 0 16 = e.raw ∧ sampleOfBits (sampleBits e) = e) ∧
  (∀ b : BitVec 19, sampleBits (sampleOfBits b) = b)

/-! ## The command decoder (40_protocol_codec.md) -/

/-- The whole step: where the decoder holds a command byte and the value byte is next, a step of the machine is exec
of the decoded instruction on the state that has consumed the byte and gone back to IDLE. This holds whether the block's
turn is next or no turn is scheduled. A response instruction is run the same way: a DRAIN step with room is
exec of the DATA or DATAMK of the oldest entry on the state without it, then the end of the drain if the buffer is
empty. -/
def Obligations.StepRunsTheDecodedInstruction : Prop :=
  (∀ (s : State) (v : Byte) (rest : List Byte),
    s.phase = .cmd → s.dstate = .gotCmd → s.cmdIn = v :: rest →
    (turns s = [] →
      step s = exec (decodeCommand s.dcmd v) { s with cmdIn := rest, dstate := .idle }) ∧
    (∀ more, turns s = .block :: more →
      step s = exec (decodeCommand s.dcmd v) { s with cmdIn := rest, dstate := .idle, sched := more })) ∧
  (∀ (s : State) (e : Sample), s.phase = .drain → 0 < s.count → s.tail < s.cfg.cap → readSlot s s.tail = e →
    rspRoom s (frameLen e.mark) = true → turns s = [] →
    step s = andThen
      (exec (if e.mark then .datamk e.ch e.raw else .data e.ch e.raw)
        { s with tail := (s.tail + 1) % s.cfg.cap, count := s.count - 1 })
      fun t => .next (finishDrain t))

/-- R84, R127: the CMD step goes to WAIT_SMP when `cmd_in` is empty, and else is DECODE_BYTE in its decoder state: in
IDLE a 0xAA starts a frame and any other byte is skipped; in GOT_START any byte is the command byte; in GOT_CMD any
byte is the value byte, and the command executes. -/
def Obligations.DecoderConsumesOneBytePerStep : Prop :=
  (∀ s : State, s.phase = .cmd → s.cmdIn = [] → blockStep s = .next { s with phase := .waitSmp }) ∧
  ∀ (s : State) (b : Byte) (rest : List Byte), s.phase = .cmd → s.cmdIn = b :: rest →
    (s.dstate = .idle → b = 0xAA#8 → blockStep s = .next { s with cmdIn := rest, dstate := .gotStart }) ∧
    (s.dstate = .idle → b ≠ 0xAA#8 → blockStep s = .next { s with cmdIn := rest }) ∧
    (s.dstate = .gotStart → blockStep s = .next { s with cmdIn := rest, dcmd := b, dstate := .gotCmd }) ∧
    (s.dstate = .gotCmd →
      blockStep s = exec (decodeCommand s.dcmd b) { s with cmdIn := rest, dstate := .idle })

/-- R83: a frame at the front of `cmd_in` takes the decoder three steps from IDLE, and its command executes in the
third, on the state that has consumed the frame and holds its command byte. -/
def Obligations.FrameExecutesInThreeSteps : Prop :=
  ∀ (s : State) (cmd v : Byte) (rest : List Byte),
    s.phase = .cmd → s.dstate = .idle → s.cmdIn = [0xAA#8, cmd, v] ++ rest →
    decode s.cmdIn = .ok (decodeCommand cmd v, rest) ∧
    blockSteps 3 s = exec (decodeCommand cmd v) { s with cmdIn := rest, dcmd := cmd }

/-- R88: the commands of one command phase execute one after another, in the order of their frames in `cmd_in`, each on
the state left by the one before. -/
def Obligations.CommandsExecuteInStreamOrder : Prop :=
  ∀ (is : List Instr) (s : State) (rest : List Byte),
    (∀ i ∈ is, i.wellFormed = true ∧ i.isCommand = true) →
    s.phase = .cmd → s.dstate = .idle → s.cmdIn = is.flatMap encode ++ rest →
    blockSteps (3 * is.length) s =
      execAll is { s with cmdIn := rest, dcmd := (is.getLast?.map Instr.commandByte).getD s.dcmd }

/-- R87: a run of n stray bytes is consumed in n steps and changes nothing else. -/
def Obligations.StrayBytesAreSkipped : Prop :=
  ∀ (bs rest : List Byte) (s : State), (∀ b ∈ bs, b ≠ 0xAA#8) →
    s.phase = .cmd → s.dstate = .idle → s.cmdIn = bs ++ rest →
    blockSteps bs.length s = .next { s with cmdIn := rest }

/-- R127: with no agent appending, the block alone empties `cmd_in` in as many steps as it holds bytes, in the CMD
phase throughout, and then goes to WAIT_SMP. -/
def Obligations.CommandPhaseEndsWhenTheQueueIsEmpty : Prop :=
  ∀ s : State, s.phase = .cmd →
    ∃ t, blockSteps s.cmdIn.length s = .next t ∧ t.phase = .cmd ∧ t.cmdIn = [] ∧
      blockSteps (s.cmdIn.length + 1) s = .next { t with phase := .waitSmp }

/-! ## The channel gate (41_channel_gate.md) -/

/-- R95: CHEN c completes in every state; it writes the mask only: channel c is enabled, and every other channel stays
as it was but for the one evicted: 0 if {0,1} are both enabled, else 2 if {2,3} are, else the partner of c if the mask
holds two channels and not c. -/
def Obligations.ChenEvictsThenEnables : Prop :=
  (∀ (c : Chan) (s : State), ∃ m : Mask,
    exec (.chen c) s = .next { s with mask := m } ∧
    ∀ k : Chan, maskBit m k =
      (k == c ||
        (maskBit s.mask k && !(
          if maskBit s.mask 0#2 && maskBit s.mask 1#2 then k == 0#2
          else if maskBit s.mask 2#2 && maskBit s.mask 3#2 then k == 2#2
          else popcount s.mask == 2 && !maskBit s.mask c && k == c ^^^ 1#2)))) ∧
  (∀ v : Byte, v.getLsbD 2 = true → decodeCommand 0xFF#8 v = .chen (v.extractLsb' 0 2))

/-- R96: CHDIS c completes in every state; it clears bit c of the mask and writes nothing else. -/
def Obligations.ChdisClearsItsChannel : Prop :=
  (∀ (c : Chan) (s : State), ∃ m : Mask,
    exec (.chdis c) s = .next { s with mask := m } ∧
    ∀ k : Chan, maskBit m k = (maskBit s.mask k && k != c)) ∧
  (∀ v : Byte, v.getLsbD 2 = false → decodeCommand 0xFF#8 v = .chdis (v.extractLsb' 0 2))

/-- R97: a CHEN or CHDIS on a mask of at most two channels leaves at most two, CHEN's own among them; so does every
sequence of them. -/
def Obligations.GateSequencesKeepAtMostTwoChannels : Prop :=
  (∀ (c : Chan) (s t : State), popcount s.mask ≤ 2 → exec (.chen c) s = .next t →
    popcount t.mask ≤ 2 ∧ maskBit t.mask c = true) ∧
  (∀ (c : Chan) (s t : State), popcount s.mask ≤ 2 → exec (.chdis c) s = .next t → popcount t.mask ≤ 2) ∧
  (∀ (is : List Instr) (s : State), (∀ i ∈ is, ∃ c, i = .chen c ∨ i = .chdis c) → popcount s.mask ≤ 2 →
    ∃ t, execAll is s = .next t ∧ popcount t.mask ≤ 2)

/-! ## The trigger commands (42_trigger_engine.md) -/

/-- R101, R102: TRIGON completes in every state, sets `enabled` and `armed`, clears `triggered` and writes nothing
else. TRIGOFF completes in every state, clears `enabled` and `armed` and writes nothing else; with `triggered` set and
entries in the buffer the next DRAIN_CHECK still drains, and the end of that drain leaves the engine disarmed; after
it no sample is evaluated or pushed. -/
def Obligations.TrigonArmsAndTrigoffDisarms : Prop :=
  (∀ s : State, exec .trigon s =
    .next { s with trig := { s.trig with enabled := true, armed := true, triggered := false } }) ∧
  (∀ s : State, exec .trigoff s =
    .next { s with trig := { s.trig with enabled := false, armed := false } }) ∧
  (∀ v : Byte, v.extractLsb' 0 4 = 0#4 →
    (v.getLsbD 4 = true → decodeCommand 0xFE#8 v = .trigon) ∧
    (v.getLsbD 4 = false → decodeCommand 0xFE#8 v = .trigoff)) ∧
  (∀ s t : State, exec .trigoff s = .next t → s.trig.triggered = true → 0 < s.count →
    drainCheckStep t = .next { t with phase := .drain } ∧
    (endOfDrain t.trig).armed = false ∧ (endOfDrain t.trig).enabled = false) ∧
  (∀ s t : State, exec .trigoff s = .next t →
    (∀ c, evaluates t.trig c = false) ∧ ∀ e, pushIfEnabled e t = .next t)

/-- R103: a reserved sub-command, 6 to 15, completes in every state and changes nothing. -/
def Obligations.ReservedSubCommandsDoNothing : Prop :=
  (∀ (n : Nibble) (s : State), exec (.trigrsv6_7 n) s = .next s ∧ exec (.trigrsv8_15 n) s = .next s) ∧
  (∀ v : Byte, 6 ≤ (v.extractLsb' 0 4).toNat →
    decodeCommand 0xFE#8 v = .trigrsv6_7 (v.extractLsb' 0 4) ∨
    decodeCommand 0xFE#8 v = .trigrsv8_15 (v.extractLsb' 0 4))

/-- R104: TRIGCH c completes in every state, sets the trigger channel and writes nothing else. -/
def Obligations.TrigchSetsTheChannel : Prop :=
  (∀ (c : Chan) (s : State), exec (.trigch c) s = .next { s with trig := { s.trig with channel := c } }) ∧
  (∀ v : Byte, v.extractLsb' 0 4 = 1#4 → decodeCommand 0xFE#8 v = .trigch (v.extractLsb' 4 2))

/-- R105, R106: LVLHI n completes in every state, stages n and writes nothing else, the level in use included. LVLLO n
completes in every state; it writes the level only: bits 15–12 the stage, bits 11–8 n, bits 7–0 zero. -/
def Obligations.LvlhiStagesAndLvlloCommits : Prop :=
  (∀ (n : Nibble) (s : State), exec (.lvlhi n) s = .next { s with trig := { s.trig with levelStage := n } }) ∧
  (∀ (n : Nibble) (s : State), ∃ l : Word,
    exec (.lvllo n) s = .next { s with trig := { s.trig with level := l } } ∧
    l.extractLsb' 12 4 = s.trig.levelStage ∧ l.extractLsb' 8 4 = n ∧ l.extractLsb' 0 8 = 0x00#8) ∧
  (∀ v : Byte, v.extractLsb' 0 4 = 2#4 → decodeCommand 0xFE#8 v = .lvlhi (v.extractLsb' 4 4)) ∧
  (∀ v : Byte, v.extractLsb' 0 4 = 3#4 → decodeCommand 0xFE#8 v = .lvllo (v.extractLsb' 4 4))

/-- R66, R79: LVLHI then LVLLO set the level to the signed byte {stage, n} times 256, between −32768 and 32512; the
pseudo-instruction LEVEL k sets it to k × 256. -/
def Obligations.LevelIsTheSignedByteTimes256 : Prop :=
  (∀ (a n : Nibble) (s : State), ∃ t, execAll [.lvlhi a, .lvllo n] s = .next t ∧
    sint16 t.trig.level = (a ++ n).toInt * 256 ∧
    -32768 ≤ sint16 t.trig.level ∧ sint16 t.trig.level ≤ 32512) ∧
  (∀ (k : BitVec 8) (s : State), ∃ t, execAll (pseudoLevel k) s = .next t ∧
    sint16 t.trig.level = k.toInt * 256)

/-- R107: EDGE r completes in every state, sets the edge and writes nothing else; bit 4 of the value is 1 for RISING. -/
def Obligations.EdgeSetsTheDirection : Prop :=
  (∀ (r : Edge) (s : State), exec (.edge r) s = .next { s with trig := { s.trig with edge := r } }) ∧
  (∀ v : Byte, v.extractLsb' 0 4 = 4#4 →
    (v.getLsbD 4 = true → decodeCommand 0xFE#8 v = .edge .rising) ∧
    (v.getLsbD 4 = false → decodeCommand 0xFE#8 v = .edge .falling))

/-- R109: FORCE completes in every state, sets `triggered` and writes nothing else. -/
def Obligations.ForceSetsTriggered : Prop :=
  (∀ s : State, exec .force s = .next { s with trig := { s.trig with triggered := true } }) ∧
  (∀ v : Byte, v.extractLsb' 0 4 = 5#4 → decodeCommand 0xFE#8 v = .force)

/-- R86: CMDNOP completes in every state and changes nothing; every command byte but 0xFE and 0xFF is one. -/
def Obligations.UnrecognisedCommandsDoNothing : Prop :=
  (∀ (k v : Byte) (s : State), exec (.cmdnop k v) s = .next s) ∧
  (∀ k v : Byte, k ≠ 0xFE#8 → k ≠ 0xFF#8 → decodeCommand k v = .cmdnop k v)

/-- R31: the engine state is a function of the flags: FIRED if `triggered`, else ARMED if `armed`, else DISARMED; it
is DISARMED after reset; FIRED after FORCE from any state; ARMED after TRIGON; DISARMED after TRIGOFF unless a trigger
is pending. -/
def Obligations.EngineStatesFollowTheFlags : Prop :=
  (∀ t : Trig, (t.triggered = true → engineState t = .fired) ∧
    (t.triggered = false → t.armed = true → engineState t = .armed) ∧
    (t.triggered = false → t.armed = false → engineState t = .disarmed)) ∧
  (∀ s : State, AtReset s → engineState s.trig = .disarmed) ∧
  (∀ s t : State, exec .force s = .next t → engineState t.trig = .fired) ∧
  (∀ s t : State, exec .trigon s = .next t → engineState t.trig = .armed) ∧
  (∀ s t : State, exec .trigoff s = .next t → s.trig.triggered = false → engineState t.trig = .disarmed)

/-! ## Frames -/

/-- R99, R108, R124: the frame of the twelve commands: each answers a next state in which only the mask (CHEN, CHDIS)
or only fields of the trigger configuration (the others) may differ; none writes `above`; only TRIGON and TRIGOFF
write `enabled` and `armed`, only TRIGON and FORCE `triggered`; every slot of the buffer reads as before. -/
def Obligations.CommandFrame : Prop :=
  ∀ (i : Instr) (s : State), i.isCommand = true →
    ∃ t, exec i s = .next t ∧ t = { s with mask := t.mask, trig := t.trig } ∧
      ((∃ c, i = .chen c ∨ i = .chdis c) → t.trig = s.trig) ∧
      ((∀ c, i ≠ .chen c ∧ i ≠ .chdis c) → t.mask = s.mask) ∧
      t.trig.above = s.trig.above ∧
      (i ≠ .trigon → i ≠ .trigoff → t.trig.enabled = s.trig.enabled ∧ t.trig.armed = s.trig.armed) ∧
      (i ≠ .trigon → i ≠ .force → t.trig.triggered = s.trig.triggered) ∧
      ((∀ r, i ≠ .edge r) → t.trig.edge = s.trig.edge) ∧
      ((∀ c, i ≠ .trigch c) → t.trig.channel = s.trig.channel) ∧
      ((∀ n, i ≠ .lvllo n) → t.trig.level = s.trig.level) ∧
      ((∀ n, i ≠ .lvlhi n) → t.trig.levelStage = s.trig.levelStage) ∧
      ∀ k, readSlot t k = readSlot s k

/-- R91: the emission of a response frame: with room on `rsp_out` the whole frame is appended as one unit, without room
the state stays as it is; nothing else changes, and every slot of the buffer reads as before. -/
def Obligations.EmissionAppendsOneFrameOrHolds : Prop :=
  ∀ (c : Chan) (raw : Word) (s : State),
    (rspRoom s 5 = true → exec (.data c raw) s = .next { s with rspOut := s.rspOut ++
      [0xAA#8, c.zeroExtend 8, raw.extractLsb' 8 8, raw.extractLsb' 0 8, 0x55#8] }) ∧
    (rspRoom s 5 = false → exec (.data c raw) s = .next s) ∧
    (rspRoom s 6 = true → exec (.datamk c raw) s = .next { s with rspOut := s.rspOut ++
      [0xAA#8, c.zeroExtend 8, raw.extractLsb' 8 8, raw.extractLsb' 0 8, 0xCC#8, 0x55#8] }) ∧
    (rspRoom s 6 = false → exec (.datamk c raw) s = .next s) ∧
    (s.cfg.rspDepth = none → rspRoom s 5 = true ∧ rspRoom s 6 = true) ∧
    (∀ d n, s.cfg.rspDepth = some d → (rspRoom s n = true ↔ s.rspOut.length + n ≤ d)) ∧
    (∀ t k, exec (.data c raw) s = .next t ∨ exec (.datamk c raw) s = .next t →
      readSlot t k = readSlot s k)

/-! ## Evaluation (42_trigger_engine.md) -/

/-- R100: the codes are the signed words, the thresholds are exact in ℤ, and the comparison of codes is exactly the
comparison of voltages, for a band of H volts and `HYST_CODE = floor(H × 3276.8)`. -/
def Obligations.CodeComparisonIsVoltageComparison : Prop :=
  (∀ w : Word, sint16 w = w.toInt ∧ -32768 ≤ sint16 w ∧ sint16 w ≤ 32767) ∧
  (∀ (h : Nat) (l : Word), hiThreshold h l = sint16 l + h ∧ loThreshold h l = sint16 l - h) ∧
  (∀ (H : Rat) (h : Nat) (l w : Word), 0 ≤ H → (h : Int) = (H * (32768 / 10)).floor →
    (hiThreshold h l < sint16 w ↔ volts l + H < volts w) ∧
    (sint16 w < loThreshold h l ↔ volts w < volts l - H))

/-- R111: EVAL: `above` rises only strictly above L + HYST_CODE and falls only strictly below L − HYST_CODE; the
result is an edge event of the configured direction while armed; a fire sets `triggered` and clears `armed`; nothing
else changes. -/
def Obligations.EvalIsASchmittTrigger : Prop :=
  ∀ (h : Nat) (t : Trig) (w : Word),
    (t.above = false → ((evalTrig h t w).above = true ↔ w.toInt > t.level.toInt + h)) ∧
    (t.above = true → ((evalTrig h t w).above = false ↔ w.toInt < t.level.toInt - h)) ∧
    (evalFires h t w = true ↔ t.armed = true ∧
      ((t.edge = .rising ∧ t.above = false ∧ (evalTrig h t w).above = true) ∨
       (t.edge = .falling ∧ t.above = true ∧ (evalTrig h t w).above = false))) ∧
    (evalFires h t w = true → (evalTrig h t w).triggered = true ∧ (evalTrig h t w).armed = false) ∧
    (evalFires h t w = false →
      (evalTrig h t w).triggered = t.triggered ∧ (evalTrig h t w).armed = t.armed) ∧
    (evalTrig h t w).enabled = t.enabled ∧ (evalTrig h t w).edge = t.edge ∧
    (evalTrig h t w).channel = t.channel ∧ (evalTrig h t w).level = t.level ∧
    (evalTrig h t w).levelStage = t.levelStage

/-- R112: RISING, armed, `above = 0`: the first sample above `hi` fires, and no earlier and no later one does; a
sequence inside the band [L−H, L+H] changes no flag and never fires, whatever the flags hold. -/
def Obligations.RisingEdgeFiresExactlyOnce : Prop :=
  (∀ (h : Nat) (t : Trig) (before after : List Word) (w : Word),
    t.edge = .rising → t.armed = true → t.above = false →
    (∀ x ∈ before, sint16 x ≤ hiThreshold h t.level) → hiThreshold h t.level < sint16 w →
    evalMarks h t (before ++ w :: after) =
      List.replicate before.length false ++ true :: List.replicate after.length false) ∧
  (∀ (h : Nat) (t : Trig) (ws : List Word),
    (∀ x ∈ ws, loThreshold h t.level ≤ sint16 x ∧ sint16 x ≤ hiThreshold h t.level) →
    evalSeq h t ws = t ∧ evalMarks h t ws = List.replicate ws.length false)

/-- R113: FALLING, armed, `above = 1`: the first sample below `lo` fires. With `above = 0` a fire first needs a sample
above `hi`, which does not fire, and then one below `lo`, which does; without a sample above `hi` there is no fire. -/
def Obligations.FallingEdgeNeedsTheUpperCrossingFirst : Prop :=
  (∀ (h : Nat) (t : Trig) (before after : List Word) (w : Word),
    t.edge = .falling → t.armed = true → t.above = true →
    (∀ x ∈ before, loThreshold h t.level ≤ sint16 x) → sint16 w < loThreshold h t.level →
    evalMarks h t (before ++ w :: after) =
      List.replicate before.length false ++ true :: List.replicate after.length false) ∧
  (∀ (h : Nat) (t : Trig) (low mid after : List Word) (u w : Word),
    t.edge = .falling → t.armed = true → t.above = false →
    (∀ x ∈ low, sint16 x ≤ hiThreshold h t.level) → hiThreshold h t.level < sint16 u →
    (∀ x ∈ mid, loThreshold h t.level ≤ sint16 x) → sint16 w < loThreshold h t.level →
    evalMarks h t (low ++ u :: mid ++ w :: after) =
      List.replicate (low.length + 1 + mid.length) false ++ true :: List.replicate after.length false) ∧
  (∀ (h : Nat) (t : Trig) (ws : List Word), t.edge = .falling → t.above = false →
    (∀ x ∈ ws, sint16 x ≤ hiThreshold h t.level) →
    evalMarks h t ws = List.replicate ws.length false)

/-- R114: after a fire no second one happens while the engine is not armed again; only the end of a drain with the
trigger enabled, or TRIGON, arms it; and even then the firing crossing needs the opposite one first. -/
def Obligations.NoRefireUntilRearmedAndCrossedAgain : Prop :=
  (∀ (h : Nat) (t : Trig) (w : Word), evalFires h t w = true → (evalTrig h t w).armed = false) ∧
  (∀ (h : Nat) (t : Trig) (ws : List Word), t.armed = false →
    evalMarks h t ws = List.replicate ws.length false ∧ (evalSeq h t ws).armed = false) ∧
  (∀ s t : State, step s = .next t → s.trig.armed = false → t.trig.armed = true →
    Executes s .trigon ∨ (EndsDrain s ∧ s.trig.enabled = true)) ∧
  (∀ (h : Nat) (t : Trig) (w : Word) (ws : List Word), evalFires h t w = true → t.edge = .rising →
    (∀ x ∈ ws, loThreshold h t.level ≤ sint16 x) →
    evalMarks h { evalTrig h t w with armed := true } ws = List.replicate ws.length false) ∧
  (∀ (h : Nat) (t : Trig) (w : Word) (ws : List Word), evalFires h t w = true → t.edge = .falling →
    (∀ x ∈ ws, sint16 x ≤ hiThreshold h t.level) →
    evalMarks h { evalTrig h t w with armed := true } ws = List.replicate ws.length false)

/-! ## The ring buffer (43_ring_buffer.md) -/

/-- R118: PUSH onto a full buffer counts the drop, saturating, and changes nothing else; onto any other it stores the
entry at `head`, advances `head` modulo CAP and `count` by one, and changes no other slot and no other field. -/
def Obligations.PushStoresOrCountsTheDrop : Prop :=
  ∀ (e : Sample) (s : State),
    (s.count = s.cfg.cap →
      push e s = .next { s with dropCount := if s.dropCount = 0xFFFF#16 then 0xFFFF#16 else s.dropCount + 1#16 }) ∧
    (s.count ≠ s.cfg.cap → s.head < s.cfg.cap → ∃ m : Memory,
      push e s = .next { s with buf := m, head := (s.head + 1) % s.cfg.cap, count := s.count + 1 } ∧
      Memory.read s.resetEpoch m s.head = e ∧
      ∀ k, k ≠ s.head → Memory.read s.resetEpoch m k = readSlot s k)

/-- R120: POP of a non-empty buffer returns the entry at `tail`, advances `tail` modulo CAP, takes one off `count`, and
changes no slot and no other field. -/
def Obligations.PopReturnsTheOldestEntry : Prop :=
  ∀ s : State, 0 < s.count → s.tail < s.cfg.cap →
    pop s = .next
      (readSlot s s.tail, { s with tail := (s.tail + 1) % s.cfg.cap, count := s.count - 1 })

/-- R121: the FIFO law: along every history of PUSH and POP from a sound state, the entries returned followed by those
still unread are the entries unread at the start followed by those stored, in order, each exactly once. -/
def Obligations.RingBufferIsFifo : Prop :=
  ∀ (ops : List BufOp) (s t : State) (stored popped : List Sample), Inv s →
    bufRun ops s = .next (t, stored, popped) →
    popped ++ liveEntries t = liveEntries s ++ stored

/-- R123: N pushes onto an empty buffer keep exactly the first min(N, CAP) entries, in order, and count the others as
drops, saturating. -/
def Obligations.PushesKeepTheFirstEntries : Prop :=
  ∀ (es : List Sample) (s : State), Inv s → s.count = 0 →
    ∃ t, pushAll es s = .next t ∧
      liveEntries t = es.take s.cfg.cap ∧ t.count = min es.length s.cfg.cap ∧
      t.dropCount.toNat = min 0xFFFF (s.dropCount.toNat + (es.length - s.cfg.cap))

/-! ## The acquisition cycle (44_acquisition_cycle.md) -/

/-- R129, R130, R119: the SMP step of channel `sidx` in a sound state. A disabled channel's word is discarded. An
enabled channel's step holds while its frame has no room; else EVAL runs exactly when the trigger is enabled and
watches the channel and gives the marker, the sample is pushed exactly when the trigger is enabled, and its frame is
appended. -/
def Obligations.SampleStepDoesEvalPushEmit : Prop :=
  ∀ s : State, Inv s → s.phase = .smp →
    (maskBit s.mask s.sidx = false → blockStep s = .next (advanceSidx s)) ∧
    (maskBit s.mask s.sidx = true →
      ∀ (w : Word) (mk : Bool) (trig : Trig), w = groupWord s.grp s.sidx →
        ((s.trig.enabled = true ∧ s.sidx = s.trig.channel) →
          mk = evalFires s.cfg.hystCode s.trig w ∧ trig = evalTrig s.cfg.hystCode s.trig w) →
        (¬ (s.trig.enabled = true ∧ s.sidx = s.trig.channel) → mk = false ∧ trig = s.trig) →
        (rspRoom s (frameLen mk) = false → blockStep s = .next s) ∧
        (rspRoom s (frameLen mk) = true →
          (s.trig.enabled = false → blockStep s =
            .next (advanceSidx { s with rspOut := s.rspOut ++ encodeFrame ⟨mk, s.sidx, w⟩ })) ∧
          (s.trig.enabled = true → ∃ u, push ⟨mk, s.sidx, w⟩ { s with trig := trig } = .next u ∧
            blockStep s = .next (advanceSidx { u with rspOut := s.rspOut ++ encodeFrame ⟨mk, s.sidx, w⟩ }))))

/-- R132: live transmission does not depend on the trigger: in a sound state with room for a frame of either length,
the SMP step of an enabled channel appends exactly one frame of the channel's word, whatever the flags and the buffer
hold. -/
def Obligations.LiveTransmissionIsUnconditional : Prop :=
  ∀ s : State, Inv s → s.phase = .smp → maskBit s.mask s.sidx = true → rspRoom s 6 = true →
    ∃ t mk, blockStep s = .next t ∧
      t.rspOut = s.rspOut ++ encodeFrame ⟨mk, s.sidx, groupWord s.grp s.sidx⟩

/-- R130 (I16): the words of disabled channels are discarded without trace: an SMP step with other words there does
exactly the same. -/
def Obligations.WordsOfDisabledChannelsLeaveNoTrace : Prop :=
  ∀ (s : State) (g : Group), s.phase = .smp →
    (∀ c, maskBit s.mask c = true → groupWord g c = groupWord s.grp c) →
    blockStep { s with grp := g } = andThen (blockStep s) fun t => .next { t with grp := g }

/-- R149 case 4 (C3), R136: a sample that fires is transmitted live with its marker; with a full buffer its buffered
copy is dropped and `drop_count` goes up by one, saturating; in a sound state the buffer is not empty after it and the
trigger is set; with the buffer empty DRAIN_CHECK goes to DELAY and leaves a pending trigger. -/
def Obligations.FiresMarkTheLiveFrameAndLeaveEntries : Prop :=
  (∀ s : State, Evaluates s → s.count = s.cfg.cap →
    evalFires s.cfg.hystCode s.trig (groupWord s.grp s.sidx) = true →
    ∃ t, blockStep s = .next t ∧
      t.rspOut = s.rspOut ++ encodeFrame ⟨true, s.sidx, groupWord s.grp s.sidx⟩ ∧
      t.buf = s.buf ∧ t.count = s.count ∧ t.head = s.head ∧ t.tail = s.tail ∧
      t.dropCount.toNat = min 0xFFFF (s.dropCount.toNat + 1) ∧
      t.trig.triggered = true ∧ t.trig.armed = false) ∧
  (∀ s t : State, Inv s → Evaluates s → evalFires s.cfg.hystCode s.trig (groupWord s.grp s.sidx) = true →
    blockStep s = .next t →
    t.rspOut = s.rspOut ++ encodeFrame ⟨true, s.sidx, groupWord s.grp s.sidx⟩ ∧
    0 < t.count ∧ t.trig.triggered = true) ∧
  (∀ s : State, s.phase = .drainCheck → s.count = 0 → blockStep s = .next { s with phase := .delay })

/-- R133, R137: WAIT_SMP, with a group offered, takes exactly the oldest one and starts SMP at channel 0; DRAIN_CHECK
goes to DRAIN exactly when the trigger is set and the buffer is not empty, else to DELAY; DELAY goes to CMD; none of
them writes any other state. -/
def Obligations.WaitSmpDrainCheckAndDelaySteps : Prop :=
  (∀ s : State, s.phase = .waitSmp →
    ∀ g rest, s.smpIn = g :: rest →
      blockStep s = .next { s with smpIn := rest, grp := g, sidx := 0#2, phase := .smp }) ∧
  (∀ s : State, s.phase = .drainCheck →
    (s.trig.triggered = true → 0 < s.count → blockStep s = .next { s with phase := .drain }) ∧
    (s.trig.triggered = false ∨ s.count = 0 → blockStep s = .next { s with phase := .delay })) ∧
  (∀ s : State, s.phase = .delay → blockStep s = .next { s with phase := .cmd })

/-- R134, R135: a DRAIN step with room emits the oldest entry and pops it; the step that empties the buffer clears
`triggered`, re-arms exactly if enabled, and goes to DELAY; without room the step holds. -/
def Obligations.DrainStepEmitsTheOldestEntry : Prop :=
  ∀ s : State, s.phase = .drain → 0 < s.count → s.tail < s.cfg.cap →
    (rspRoom s (frameLen (readSlot s s.tail).mark) = false → blockStep s = .next s) ∧
    (rspRoom s (frameLen (readSlot s s.tail).mark) = true →
      (1 < s.count → blockStep s = .next
        { s with
          tail := (s.tail + 1) % s.cfg.cap, count := s.count - 1
          rspOut := s.rspOut ++ encodeFrame (readSlot s s.tail) }) ∧
      (s.count = 1 → blockStep s = .next
        { s with
          tail := (s.tail + 1) % s.cfg.cap, count := 0
          rspOut := s.rspOut ++ encodeFrame (readSlot s s.tail)
          trig := { s.trig with triggered := false, armed := s.trig.enabled }
          phase := .delay }))

/-- R125: a drain, once begun, empties the buffer before the sequencer leaves DRAIN, whatever the other agents do
meanwhile (but for a reset); and with an unbounded `rsp_out` it takes as many steps of the block as there are entries
and emits exactly those, oldest first. -/
def Obligations.DrainRunsToCompletion : Prop :=
  (∀ s t : State, step s = .next t → ¬ RstTurn s → s.phase = .drain →
    t.phase = .drain ∨ (t.phase = .delay ∧ t.count = 0)) ∧
  (∀ s : State, Inv s → s.phase = .drain → s.cfg.rspDepth = none →
    ∃ t, blockSteps s.count s = .next t ∧ t.phase = .delay ∧ t.count = 0 ∧
      t.rspOut = s.rspOut ++ framesOf (liveEntries s) ∧ t.trig = endOfDrain s.trig)

/-- R140: the output of one cycle, from its SMP phase on, with an unbounded `rsp_out`: the frames of the enabled
channels in ascending order, each with the marker SAMPLE computes; then, if DRAIN_CHECK goes to DRAIN, the frames of
every entry the buffer holds after the SMP phase, oldest first; those include this cycle's samples, as far as the
buffer has room, exactly when the trigger is enabled. -/
def Obligations.OneCycleEmitsLiveThenDrainedFrames : Prop :=
  ∀ s : State, Inv s → s.phase = .smp → s.sidx = 0#2 → s.cfg.rspDepth = none →
    ∃ u, blockSteps 4 s = .next u ∧ u.phase = .drainCheck ∧
      u.rspOut = s.rspOut ++ framesOf (cycleSamples s) ∧
      liveEntries u =
        (liveEntries s ++ if s.trig.enabled then cycleSamples s else []).take s.cfg.cap ∧
      ∃ n t, blockSteps n u = .next t ∧ t.phase = .delay ∧
        t.rspOut = u.rspOut ++
          framesOf (if u.trig.triggered && decide (0 < u.count) then liveEntries u else [])

/-! ## Progress (70_reset_and_hazards.md) -/

/-- R172: a host that appends a byte at least once before each step of the block (and, holding where `cmd_in` is full,
up to k + 1 of them), forever, keeps the block in CMD forever: after any number of steps no sample was taken and no
frame was emitted. So no claim that the CMD phase ends holds without a premise about the host. -/
def Obligations.HostStarvationKeepsTheBlockInCmd : Prop :=
  ∀ (s : State) (k : Nat), Inv s → s.phase = .cmd → s.sched = [] →
    s.schedAgain = List.replicate (k + 1) .hostSend ++ [.block] → s.hostAgain ≠ [] →
    ∀ n, ∃ t, machineSteps n s = .next t ∧ t.phase = .cmd ∧ t.smpIn = s.smpIn ∧ t.grp = s.grp ∧
      t.rspOut = s.rspOut ∧ t.hostReceived = s.hostReceived
end

