-- ==== Sys2Proof/Laws/State.lean ====
section
/-! SUPPORT. One lemma per field for each operation that updates State, so that no later proof unfolds a record
update. -/

namespace Sys2Proof.Machine

/-! ## EMIT writes `rspOut` only -/

@[simp] theorem emit_phase (e : Sample) (s : State) : (emit e s).phase = s.phase := by unfold emit; split <;> rfl
@[simp] theorem emit_sidx (e : Sample) (s : State) : (emit e s).sidx = s.sidx := by unfold emit; split <;> rfl
@[simp] theorem emit_grp (e : Sample) (s : State) : (emit e s).grp = s.grp := by unfold emit; split <;> rfl
@[simp] theorem emit_mask (e : Sample) (s : State) : (emit e s).mask = s.mask := by unfold emit; split <;> rfl
@[simp] theorem emit_trig (e : Sample) (s : State) : (emit e s).trig = s.trig := by unfold emit; split <;> rfl
@[simp] theorem emit_buf (e : Sample) (s : State) : (emit e s).buf = s.buf := by unfold emit; split <;> rfl
@[simp] theorem emit_head (e : Sample) (s : State) : (emit e s).head = s.head := by unfold emit; split <;> rfl
@[simp] theorem emit_tail (e : Sample) (s : State) : (emit e s).tail = s.tail := by unfold emit; split <;> rfl
@[simp] theorem emit_count (e : Sample) (s : State) : (emit e s).count = s.count := by unfold emit; split <;> rfl
@[simp] theorem emit_dropCount (e : Sample) (s : State) : (emit e s).dropCount = s.dropCount := by unfold emit; split <;> rfl
@[simp] theorem emit_dstate (e : Sample) (s : State) : (emit e s).dstate = s.dstate := by unfold emit; split <;> rfl
@[simp] theorem emit_dcmd (e : Sample) (s : State) : (emit e s).dcmd = s.dcmd := by unfold emit; split <;> rfl
@[simp] theorem emit_cmdIn (e : Sample) (s : State) : (emit e s).cmdIn = s.cmdIn := by unfold emit; split <;> rfl
@[simp] theorem emit_smpIn (e : Sample) (s : State) : (emit e s).smpIn = s.smpIn := by unfold emit; split <;> rfl
@[simp] theorem emit_cfg (e : Sample) (s : State) : (emit e s).cfg = s.cfg := by unfold emit; split <;> rfl
@[simp] theorem emit_hostPending (e : Sample) (s : State) : (emit e s).hostPending = s.hostPending := by unfold emit; split <;> rfl
@[simp] theorem emit_hostReceived (e : Sample) (s : State) : (emit e s).hostReceived = s.hostReceived := by unfold emit; split <;> rfl
@[simp] theorem emit_convPending (e : Sample) (s : State) : (emit e s).convPending = s.convPending := by unfold emit; split <;> rfl
@[simp] theorem emit_sched (e : Sample) (s : State) : (emit e s).sched = s.sched := by unfold emit; split <;> rfl
@[simp] theorem emit_hostAgain (e : Sample) (s : State) : (emit e s).hostAgain = s.hostAgain := by unfold emit; split <;> rfl
@[simp] theorem emit_convAgain (e : Sample) (s : State) : (emit e s).convAgain = s.convAgain := by unfold emit; split <;> rfl
@[simp] theorem emit_schedAgain (e : Sample) (s : State) : (emit e s).schedAgain = s.schedAgain := by unfold emit; split <;> rfl
@[simp] theorem emit_resetEpoch (e : Sample) (s : State) : (emit e s).resetEpoch = s.resetEpoch := by unfold emit; split <;> rfl

/-! ## The next channel writes `sidx` and `phase` only -/

@[simp] theorem advanceSidx_grp (s : State) : (advanceSidx s).grp = s.grp := by unfold advanceSidx; split <;> rfl
@[simp] theorem advanceSidx_mask (s : State) : (advanceSidx s).mask = s.mask := by unfold advanceSidx; split <;> rfl
@[simp] theorem advanceSidx_trig (s : State) : (advanceSidx s).trig = s.trig := by unfold advanceSidx; split <;> rfl
@[simp] theorem advanceSidx_buf (s : State) : (advanceSidx s).buf = s.buf := by unfold advanceSidx; split <;> rfl
@[simp] theorem advanceSidx_head (s : State) : (advanceSidx s).head = s.head := by unfold advanceSidx; split <;> rfl
@[simp] theorem advanceSidx_tail (s : State) : (advanceSidx s).tail = s.tail := by unfold advanceSidx; split <;> rfl
@[simp] theorem advanceSidx_count (s : State) : (advanceSidx s).count = s.count := by unfold advanceSidx; split <;> rfl
@[simp] theorem advanceSidx_dropCount (s : State) : (advanceSidx s).dropCount = s.dropCount := by unfold advanceSidx; split <;> rfl
@[simp] theorem advanceSidx_dstate (s : State) : (advanceSidx s).dstate = s.dstate := by unfold advanceSidx; split <;> rfl
@[simp] theorem advanceSidx_dcmd (s : State) : (advanceSidx s).dcmd = s.dcmd := by unfold advanceSidx; split <;> rfl
@[simp] theorem advanceSidx_cmdIn (s : State) : (advanceSidx s).cmdIn = s.cmdIn := by unfold advanceSidx; split <;> rfl
@[simp] theorem advanceSidx_rspOut (s : State) : (advanceSidx s).rspOut = s.rspOut := by unfold advanceSidx; split <;> rfl
@[simp] theorem advanceSidx_smpIn (s : State) : (advanceSidx s).smpIn = s.smpIn := by unfold advanceSidx; split <;> rfl
@[simp] theorem advanceSidx_cfg (s : State) : (advanceSidx s).cfg = s.cfg := by unfold advanceSidx; split <;> rfl
@[simp] theorem advanceSidx_hostPending (s : State) : (advanceSidx s).hostPending = s.hostPending := by unfold advanceSidx; split <;> rfl
@[simp] theorem advanceSidx_hostReceived (s : State) : (advanceSidx s).hostReceived = s.hostReceived := by unfold advanceSidx; split <;> rfl
@[simp] theorem advanceSidx_convPending (s : State) : (advanceSidx s).convPending = s.convPending := by unfold advanceSidx; split <;> rfl
@[simp] theorem advanceSidx_sched (s : State) : (advanceSidx s).sched = s.sched := by unfold advanceSidx; split <;> rfl
@[simp] theorem advanceSidx_hostAgain (s : State) : (advanceSidx s).hostAgain = s.hostAgain := by unfold advanceSidx; split <;> rfl
@[simp] theorem advanceSidx_convAgain (s : State) : (advanceSidx s).convAgain = s.convAgain := by unfold advanceSidx; split <;> rfl
@[simp] theorem advanceSidx_schedAgain (s : State) : (advanceSidx s).schedAgain = s.schedAgain := by unfold advanceSidx; split <;> rfl
@[simp] theorem advanceSidx_resetEpoch (s : State) : (advanceSidx s).resetEpoch = s.resetEpoch := by unfold advanceSidx; split <;> rfl

/-! ## The end of a DRAIN step writes `trig` and `phase` only -/

@[simp] theorem finishDrain_sidx (s : State) : (finishDrain s).sidx = s.sidx := by unfold finishDrain; split <;> rfl
@[simp] theorem finishDrain_grp (s : State) : (finishDrain s).grp = s.grp := by unfold finishDrain; split <;> rfl
@[simp] theorem finishDrain_mask (s : State) : (finishDrain s).mask = s.mask := by unfold finishDrain; split <;> rfl
@[simp] theorem finishDrain_buf (s : State) : (finishDrain s).buf = s.buf := by unfold finishDrain; split <;> rfl
@[simp] theorem finishDrain_head (s : State) : (finishDrain s).head = s.head := by unfold finishDrain; split <;> rfl
@[simp] theorem finishDrain_tail (s : State) : (finishDrain s).tail = s.tail := by unfold finishDrain; split <;> rfl
@[simp] theorem finishDrain_count (s : State) : (finishDrain s).count = s.count := by unfold finishDrain; split <;> rfl
@[simp] theorem finishDrain_dropCount (s : State) : (finishDrain s).dropCount = s.dropCount := by unfold finishDrain; split <;> rfl
@[simp] theorem finishDrain_dstate (s : State) : (finishDrain s).dstate = s.dstate := by unfold finishDrain; split <;> rfl
@[simp] theorem finishDrain_dcmd (s : State) : (finishDrain s).dcmd = s.dcmd := by unfold finishDrain; split <;> rfl
@[simp] theorem finishDrain_cmdIn (s : State) : (finishDrain s).cmdIn = s.cmdIn := by unfold finishDrain; split <;> rfl
@[simp] theorem finishDrain_rspOut (s : State) : (finishDrain s).rspOut = s.rspOut := by unfold finishDrain; split <;> rfl
@[simp] theorem finishDrain_smpIn (s : State) : (finishDrain s).smpIn = s.smpIn := by unfold finishDrain; split <;> rfl
@[simp] theorem finishDrain_cfg (s : State) : (finishDrain s).cfg = s.cfg := by unfold finishDrain; split <;> rfl
@[simp] theorem finishDrain_hostPending (s : State) : (finishDrain s).hostPending = s.hostPending := by unfold finishDrain; split <;> rfl
@[simp] theorem finishDrain_hostReceived (s : State) : (finishDrain s).hostReceived = s.hostReceived := by unfold finishDrain; split <;> rfl
@[simp] theorem finishDrain_convPending (s : State) : (finishDrain s).convPending = s.convPending := by unfold finishDrain; split <;> rfl
@[simp] theorem finishDrain_sched (s : State) : (finishDrain s).sched = s.sched := by unfold finishDrain; split <;> rfl
@[simp] theorem finishDrain_hostAgain (s : State) : (finishDrain s).hostAgain = s.hostAgain := by unfold finishDrain; split <;> rfl
@[simp] theorem finishDrain_convAgain (s : State) : (finishDrain s).convAgain = s.convAgain := by unfold finishDrain; split <;> rfl
@[simp] theorem finishDrain_schedAgain (s : State) : (finishDrain s).schedAgain = s.schedAgain := by unfold finishDrain; split <;> rfl
@[simp] theorem finishDrain_resetEpoch (s : State) : (finishDrain s).resetEpoch = s.resetEpoch := by unfold finishDrain; split <;> rfl

/-! ## The host and the converter interface change only queues and ports (20_memory.md R55) -/

@[simp] theorem hostSend_phase (s : State) : (hostSend s).phase = s.phase := by unfold hostSend; split <;> [skip; split] <;> rfl
@[simp] theorem hostSend_sidx (s : State) : (hostSend s).sidx = s.sidx := by unfold hostSend; split <;> [skip; split] <;> rfl
@[simp] theorem hostSend_grp (s : State) : (hostSend s).grp = s.grp := by unfold hostSend; split <;> [skip; split] <;> rfl
@[simp] theorem hostSend_mask (s : State) : (hostSend s).mask = s.mask := by unfold hostSend; split <;> [skip; split] <;> rfl
@[simp] theorem hostSend_trig (s : State) : (hostSend s).trig = s.trig := by unfold hostSend; split <;> [skip; split] <;> rfl
@[simp] theorem hostSend_buf (s : State) : (hostSend s).buf = s.buf := by unfold hostSend; split <;> [skip; split] <;> rfl
@[simp] theorem hostSend_head (s : State) : (hostSend s).head = s.head := by unfold hostSend; split <;> [skip; split] <;> rfl
@[simp] theorem hostSend_tail (s : State) : (hostSend s).tail = s.tail := by unfold hostSend; split <;> [skip; split] <;> rfl
@[simp] theorem hostSend_count (s : State) : (hostSend s).count = s.count := by unfold hostSend; split <;> [skip; split] <;> rfl
@[simp] theorem hostSend_dropCount (s : State) : (hostSend s).dropCount = s.dropCount := by unfold hostSend; split <;> [skip; split] <;> rfl
@[simp] theorem hostSend_dstate (s : State) : (hostSend s).dstate = s.dstate := by unfold hostSend; split <;> [skip; split] <;> rfl
@[simp] theorem hostSend_dcmd (s : State) : (hostSend s).dcmd = s.dcmd := by unfold hostSend; split <;> [skip; split] <;> rfl
@[simp] theorem hostSend_rspOut (s : State) : (hostSend s).rspOut = s.rspOut := by unfold hostSend; split <;> [skip; split] <;> rfl
@[simp] theorem hostSend_smpIn (s : State) : (hostSend s).smpIn = s.smpIn := by unfold hostSend; split <;> [skip; split] <;> rfl
@[simp] theorem hostSend_cfg (s : State) : (hostSend s).cfg = s.cfg := by unfold hostSend; split <;> [skip; split] <;> rfl
@[simp] theorem hostSend_hostReceived (s : State) : (hostSend s).hostReceived = s.hostReceived := by unfold hostSend; split <;> [skip; split] <;> rfl
@[simp] theorem hostSend_convPending (s : State) : (hostSend s).convPending = s.convPending := by unfold hostSend; split <;> [skip; split] <;> rfl
@[simp] theorem hostSend_sched (s : State) : (hostSend s).sched = s.sched := by unfold hostSend; split <;> [skip; split] <;> rfl
@[simp] theorem hostSend_hostAgain (s : State) : (hostSend s).hostAgain = s.hostAgain := by unfold hostSend; split <;> [skip; split] <;> rfl
@[simp] theorem hostSend_convAgain (s : State) : (hostSend s).convAgain = s.convAgain := by unfold hostSend; split <;> [skip; split] <;> rfl
@[simp] theorem hostSend_schedAgain (s : State) : (hostSend s).schedAgain = s.schedAgain := by unfold hostSend; split <;> [skip; split] <;> rfl
@[simp] theorem hostSend_resetEpoch (s : State) : (hostSend s).resetEpoch = s.resetEpoch := by unfold hostSend; split <;> [skip; split] <;> rfl
@[simp] theorem hostTake_phase (s : State) : (hostTake s).phase = s.phase := by unfold hostTake; split <;> rfl
@[simp] theorem hostTake_sidx (s : State) : (hostTake s).sidx = s.sidx := by unfold hostTake; split <;> rfl
@[simp] theorem hostTake_grp (s : State) : (hostTake s).grp = s.grp := by unfold hostTake; split <;> rfl
@[simp] theorem hostTake_mask (s : State) : (hostTake s).mask = s.mask := by unfold hostTake; split <;> rfl
@[simp] theorem hostTake_trig (s : State) : (hostTake s).trig = s.trig := by unfold hostTake; split <;> rfl
@[simp] theorem hostTake_buf (s : State) : (hostTake s).buf = s.buf := by unfold hostTake; split <;> rfl
@[simp] theorem hostTake_head (s : State) : (hostTake s).head = s.head := by unfold hostTake; split <;> rfl
@[simp] theorem hostTake_tail (s : State) : (hostTake s).tail = s.tail := by unfold hostTake; split <;> rfl
@[simp] theorem hostTake_count (s : State) : (hostTake s).count = s.count := by unfold hostTake; split <;> rfl
@[simp] theorem hostTake_dropCount (s : State) : (hostTake s).dropCount = s.dropCount := by unfold hostTake; split <;> rfl
@[simp] theorem hostTake_dstate (s : State) : (hostTake s).dstate = s.dstate := by unfold hostTake; split <;> rfl
@[simp] theorem hostTake_dcmd (s : State) : (hostTake s).dcmd = s.dcmd := by unfold hostTake; split <;> rfl
@[simp] theorem hostTake_cmdIn (s : State) : (hostTake s).cmdIn = s.cmdIn := by unfold hostTake; split <;> rfl
@[simp] theorem hostTake_smpIn (s : State) : (hostTake s).smpIn = s.smpIn := by unfold hostTake; split <;> rfl
@[simp] theorem hostTake_cfg (s : State) : (hostTake s).cfg = s.cfg := by unfold hostTake; split <;> rfl
@[simp] theorem hostTake_hostPending (s : State) : (hostTake s).hostPending = s.hostPending := by unfold hostTake; split <;> rfl
@[simp] theorem hostTake_convPending (s : State) : (hostTake s).convPending = s.convPending := by unfold hostTake; split <;> rfl
@[simp] theorem hostTake_sched (s : State) : (hostTake s).sched = s.sched := by unfold hostTake; split <;> rfl
@[simp] theorem hostTake_hostAgain (s : State) : (hostTake s).hostAgain = s.hostAgain := by unfold hostTake; split <;> rfl
@[simp] theorem hostTake_convAgain (s : State) : (hostTake s).convAgain = s.convAgain := by unfold hostTake; split <;> rfl
@[simp] theorem hostTake_schedAgain (s : State) : (hostTake s).schedAgain = s.schedAgain := by unfold hostTake; split <;> rfl
@[simp] theorem hostTake_resetEpoch (s : State) : (hostTake s).resetEpoch = s.resetEpoch := by unfold hostTake; split <;> rfl
@[simp] theorem converterOffer_phase (s : State) : (converterOffer s).phase = s.phase := by unfold converterOffer; split <;> rfl
@[simp] theorem converterOffer_sidx (s : State) : (converterOffer s).sidx = s.sidx := by unfold converterOffer; split <;> rfl
@[simp] theorem converterOffer_grp (s : State) : (converterOffer s).grp = s.grp := by unfold converterOffer; split <;> rfl
@[simp] theorem converterOffer_mask (s : State) : (converterOffer s).mask = s.mask := by unfold converterOffer; split <;> rfl
@[simp] theorem converterOffer_trig (s : State) : (converterOffer s).trig = s.trig := by unfold converterOffer; split <;> rfl
@[simp] theorem converterOffer_buf (s : State) : (converterOffer s).buf = s.buf := by unfold converterOffer; split <;> rfl
@[simp] theorem converterOffer_head (s : State) : (converterOffer s).head = s.head := by unfold converterOffer; split <;> rfl
@[simp] theorem converterOffer_tail (s : State) : (converterOffer s).tail = s.tail := by unfold converterOffer; split <;> rfl
@[simp] theorem converterOffer_count (s : State) : (converterOffer s).count = s.count := by unfold converterOffer; split <;> rfl
@[simp] theorem converterOffer_dropCount (s : State) : (converterOffer s).dropCount = s.dropCount := by unfold converterOffer; split <;> rfl
@[simp] theorem converterOffer_dstate (s : State) : (converterOffer s).dstate = s.dstate := by unfold converterOffer; split <;> rfl
@[simp] theorem converterOffer_dcmd (s : State) : (converterOffer s).dcmd = s.dcmd := by unfold converterOffer; split <;> rfl
@[simp] theorem converterOffer_cmdIn (s : State) : (converterOffer s).cmdIn = s.cmdIn := by unfold converterOffer; split <;> rfl
@[simp] theorem converterOffer_rspOut (s : State) : (converterOffer s).rspOut = s.rspOut := by unfold converterOffer; split <;> rfl
@[simp] theorem converterOffer_cfg (s : State) : (converterOffer s).cfg = s.cfg := by unfold converterOffer; split <;> rfl
@[simp] theorem converterOffer_hostPending (s : State) : (converterOffer s).hostPending = s.hostPending := by unfold converterOffer; split <;> rfl
@[simp] theorem converterOffer_hostReceived (s : State) : (converterOffer s).hostReceived = s.hostReceived := by unfold converterOffer; split <;> rfl
@[simp] theorem converterOffer_sched (s : State) : (converterOffer s).sched = s.sched := by unfold converterOffer; split <;> rfl
@[simp] theorem converterOffer_hostAgain (s : State) : (converterOffer s).hostAgain = s.hostAgain := by unfold converterOffer; split <;> rfl
@[simp] theorem converterOffer_convAgain (s : State) : (converterOffer s).convAgain = s.convAgain := by unfold converterOffer; split <;> rfl
@[simp] theorem converterOffer_schedAgain (s : State) : (converterOffer s).schedAgain = s.schedAgain := by unfold converterOffer; split <;> rfl
@[simp] theorem converterOffer_resetEpoch (s : State) : (converterOffer s).resetEpoch = s.resetEpoch := by unfold converterOffer; split <;> rfl

/-! ## RESET keeps the parameters and what the other agents hold -/

@[simp] theorem takeReset_smpIn (s : State) : (takeReset s).smpIn = s.smpIn := rfl
@[simp] theorem takeReset_cfg (s : State) : (takeReset s).cfg = s.cfg := rfl
@[simp] theorem takeReset_hostPending (s : State) : (takeReset s).hostPending = s.hostPending := rfl
@[simp] theorem takeReset_hostReceived (s : State) : (takeReset s).hostReceived = s.hostReceived := rfl
@[simp] theorem takeReset_convPending (s : State) : (takeReset s).convPending = s.convPending := rfl
@[simp] theorem takeReset_sched (s : State) : (takeReset s).sched = s.sched := rfl
@[simp] theorem takeReset_hostAgain (s : State) : (takeReset s).hostAgain = s.hostAgain := rfl
@[simp] theorem takeReset_convAgain (s : State) : (takeReset s).convAgain = s.convAgain := rfl
@[simp] theorem takeReset_schedAgain (s : State) : (takeReset s).schedAgain = s.schedAgain := rfl
@[simp] theorem takeReset_mask (s : State) : (takeReset s).mask = s.cfg.maskReset := rfl
@[simp] theorem takeReset_phase (s : State) : (takeReset s).phase = .cmd := rfl
@[simp] theorem takeReset_sidx (s : State) : (takeReset s).sidx = 0#2 := rfl
@[simp] theorem takeReset_buf (s : State) : (takeReset s).buf = [] := rfl
@[simp] theorem takeReset_head (s : State) : (takeReset s).head = 0 := rfl
@[simp] theorem takeReset_tail (s : State) : (takeReset s).tail = 0 := rfl
@[simp] theorem takeReset_count (s : State) : (takeReset s).count = 0 := rfl
@[simp] theorem takeReset_dropCount (s : State) : (takeReset s).dropCount = 0#16 := rfl
@[simp] theorem takeReset_dstate (s : State) : (takeReset s).dstate = .idle := rfl
@[simp] theorem takeReset_dcmd (s : State) : (takeReset s).dcmd = 0x00#8 := rfl
@[simp] theorem takeReset_cmdIn (s : State) : (takeReset s).cmdIn = [] := rfl
@[simp] theorem takeReset_rspOut (s : State) : (takeReset s).rspOut = [] := rfl
@[simp] theorem takeReset_trig (s : State) :
    (takeReset s).trig = ⟨false, false, false, false, .rising, 0#2, 0x0000#16, 0x0#4⟩ := rfl
@[simp] theorem takeReset_resetEpoch (s : State) : (takeReset s).resetEpoch = s.resetEpoch + 1 := rfl

end Sys2Proof.Machine
end

