-- ==== Sys2Proof/Laws/Ops.lean ====
section
/-! SUPPORT. What the shared operations can do, said once: the storage, PUSH, POP, the queues, EMIT and the
continuation of an outcome. -/

namespace Sys2Proof.Machine

/-! ## Outcomes -/

@[simp] theorem andThen_next {α β : Type} (a : α) (f : α → Host.Outcome β Fault Refusal) :
    andThen (.next a) f = f a := rfl

@[simp] theorem andThen_fault {α β : Type} (r : Fault) (f : α → Host.Outcome β Fault Refusal) :
    andThen (.fault r) f = .fault r := rfl

@[simp] theorem andThen_refused {α β : Type} (r : Refusal) (f : α → Host.Outcome β Fault Refusal) :
    andThen (.refused r) f = .refused r := rfl

theorem andThen_eq_next {α β : Type} {o : Host.Outcome α Fault Refusal}
    {f : α → Host.Outcome β Fault Refusal} {b : β} :
    andThen o f = .next b ↔ ∃ a, o = .next a ∧ f a = .next b := by
  cases o <;> simp

theorem andThen_assoc {α β γ : Type} (o : Host.Outcome α Fault Refusal)
    (f : α → Host.Outcome β Fault Refusal) (g : β → Host.Outcome γ Fault Refusal) :
    andThen (andThen o f) g = andThen o (fun a => andThen (f a) g) := by
  cases o <;> rfl

theorem blockSteps_add (m n : Nat) (s : State) :
    blockSteps (m + n) s = andThen (blockSteps m s) (blockSteps n) := by
  induction m generalizing s with
  | zero => simp [blockSteps]
  | succ m ih =>
    rw [Nat.succ_add]
    simp only [blockSteps, andThen_assoc]
    exact congrArg _ (funext ih)

/-! ## What an agent works through, and the widths of the indices -/

@[simp] theorem refill_nil {α : Type} (again : List α) : refill [] again = again := rfl

@[simp] theorem refill_cons {α : Type} (a : α) (rest again : List α) : refill (a :: rest) again = a :: rest := rfl

/-- Everything `refill` can answer. -/
theorem refill_cases {α : Type} (now again : List α) :
    (now ≠ [] ∧ refill now again = now) ∨ (now = [] ∧ refill now again = again) := by
  cases now <;> simp

/-- Only an agent with nothing pending and nothing that repeats is at rest. -/
theorem refill_eq_nil {α : Type} {now again : List α} : refill now again = [] ↔ now = [] ∧ again = [] := by
  cases now <;> simp

/-- `ceilLog2 n` bits hold n different values (00_scope.md R7). -/
theorem le_two_pow_ceilLog2 (n : Nat) : n ≤ 2 ^ ceilLog2 n := by
  unfold ceilLog2
  split
  · simpa
  · have := Nat.lt_log2_self (n := n - 1)
    omega

/-- No smaller number of bits does. -/
theorem ceilLog2_le {n k : Nat} (h : n ≤ 2 ^ k) : ceilLog2 n ≤ k := by
  unfold ceilLog2
  split
  · exact Nat.zero_le k
  · have := (Nat.log2_lt (n := n - 1) (by omega)).2 (show n - 1 < 2 ^ k by omega)
    omega

/-- In a sound state the status port shows `head`, `tail` and `count` whole, in the widths of 00_scope.md R7. -/
theorem status_indices {s : State} (h : Inv s) :
    (status s).head.toNat = s.head ∧ (status s).tail.toNat = s.tail ∧ (status s).count.toNat = s.count := by
  have hi := le_two_pow_ceilLog2 s.cfg.cap
  have hc := le_two_pow_ceilLog2 (s.cfg.cap + 1)
  refine ⟨Nat.mod_eq_of_lt ?_, Nat.mod_eq_of_lt ?_, Nat.mod_eq_of_lt ?_⟩
  · exact h.head_lt.trans_le hi
  · exact h.tail_lt.trans_le hi
  · exact (Nat.lt_succ_of_le h.count_le).trans_le hc

/-! ## The storage -/

theorem lookup_write_same (m : Memory) (k : Nat) (e : Sample) :
    Memory.lookup (Memory.write m k e) k = some e := by
  induction m with
  | nil => simp [Memory.write, Memory.lookup]
  | cons p rest ih =>
    obtain ⟨i, d⟩ := p
    simp only [Memory.write]
    split
    · simp [Memory.lookup]
    · split
      · simp [Memory.lookup]
      · rename_i h
        simpa [Memory.lookup, h] using ih

theorem lookup_write_other (m : Memory) {k j : Nat} (e : Sample) (h : j ≠ k) :
    Memory.lookup (Memory.write m k e) j = Memory.lookup m j := by
  induction m with
  | nil => simp [Memory.write, Memory.lookup, h]
  | cons p rest ih =>
    obtain ⟨i, d⟩ := p
    simp only [Memory.write]
    split
    · simp [Memory.lookup, h]
    · split
      · rename_i hk
        subst hk
        simp [Memory.lookup, h]
      · simp only [Memory.lookup]
        split
        · rfl
        · exact ih

theorem read_write_same (n : Nat) (m : Memory) (k : Nat) (e : Sample) :
    Memory.read n (Memory.write m k e) k = e := by
  simp [Memory.read, lookup_write_same]

theorem read_write_other (n : Nat) (m : Memory) {k j : Nat} (e : Sample) (h : j ≠ k) :
    Memory.read n (Memory.write m k e) j = Memory.read n m j := by
  simp [Memory.read, lookup_write_other m e h]

/-- The canonical form, as a pairwise order of the indices. -/
theorem wf_iff_pairwise (m : Memory) :
    Memory.wf m = true ↔ m.Pairwise (fun p q => p.1 < q.1) := by
  induction m with
  | nil => simp [Memory.wf]
  | cons p rest ih =>
    cases rest with
    | nil => simp [Memory.wf]
    | cons q rest =>
      obtain ⟨i, d⟩ := p
      obtain ⟨j, e⟩ := q
      simp only [Memory.wf, Bool.and_eq_true, decide_eq_true_eq, ih]
      constructor
      · rintro ⟨hij, hp⟩
        refine List.pairwise_cons.2 ⟨fun r hr => ?_, hp⟩
        rcases List.mem_cons.1 hr with rfl | hr
        · exact hij
        · exact hij.trans ((List.pairwise_cons.1 hp).1 r hr)
      · intro hp
        exact ⟨(List.pairwise_cons.1 hp).1 (j, e) (by simp), (List.pairwise_cons.1 hp).2⟩

theorem mem_write {m : Memory} {k : Nat} {e : Sample} {p : Nat × Sample}
    (h : p ∈ Memory.write m k e) : p = (k, e) ∨ p ∈ m := by
  induction m with
  | nil => simpa [Memory.write] using h
  | cons q rest ih =>
    obtain ⟨i, d⟩ := q
    simp only [Memory.write] at h
    split at h
    · simpa using h
    · split at h
      · rcases List.mem_cons.1 h with h | h
        · exact .inl h
        · exact .inr (List.mem_cons_of_mem _ h)
      · rcases List.mem_cons.1 h with h | h
        · exact .inr (by simp [h])
        · exact (ih h).imp id (List.mem_cons_of_mem _)

/-- Every write keeps the canonical form of the storage. -/
theorem write_wf (m : Memory) (k : Nat) (e : Sample) (h : Memory.wf m = true) :
    Memory.wf (Memory.write m k e) = true := by
  rw [wf_iff_pairwise] at h ⊢
  induction m with
  | nil => simp [Memory.write]
  | cons p rest ih =>
    obtain ⟨i, d⟩ := p
    obtain ⟨h1, h2⟩ := List.pairwise_cons.1 h
    simp only [Memory.write]
    split
    · rename_i hk
      refine List.pairwise_cons.2 ⟨fun q hq => ?_, h⟩
      rcases List.mem_cons.1 hq with rfl | hq
      · exact hk
      · exact Nat.lt_trans hk (h1 q hq)
    · split
      · rename_i hk
        exact List.pairwise_cons.2 ⟨fun q hq => hk ▸ h1 q hq, h2⟩
      · rename_i hlt hne
        refine List.pairwise_cons.2 ⟨fun q hq => ?_, ih h2⟩
        rcases mem_write hq with rfl | hq
        · show i < k
          omega
        · exact h1 q hq

/-! ## PUSH and POP -/

/-- Everything PUSH can do. -/
theorem push_cases {e : Sample} {s t : State} (h : push e s = .next t) :
    (s.count = s.cfg.cap ∧ t = { s with dropCount := satSucc s.dropCount }) ∨
    (s.count ≠ s.cfg.cap ∧ s.head < s.cfg.cap ∧
      t = { s with
        buf := Memory.write s.buf s.head e
        head := (s.head + 1) % s.cfg.cap
        count := s.count + 1 }) := by
  unfold push at h
  split at h
  · rename_i hc
    cases h
    exact .inl ⟨hc, rfl⟩
  · split at h
    · cases h
    · rename_i hc hh
      cases h
      exact .inr ⟨hc, by omega, rfl⟩

/-- PUSH completes whenever its index exists. -/
theorem push_completes (e : Sample) {s : State} (h : s.head < s.cfg.cap) : ∃ t, push e s = .next t := by
  unfold push
  split
  · exact ⟨_, rfl⟩
  · rw [if_neg (by omega)]
    exact ⟨_, rfl⟩

/-- Everything POP can do. -/
theorem pop_cases {s : State} {p : Sample × State} (h : pop s = .next p) :
    0 < s.count ∧ s.tail < s.cfg.cap ∧
      p = (readSlot s s.tail, { s with tail := (s.tail + 1) % s.cfg.cap, count := s.count - 1 }) := by
  unfold pop at h
  split at h
  · cases h
  · split at h
    · cases h
    · cases h
      exact ⟨by omega, by omega, rfl⟩

/-- POP completes on a non-empty buffer. -/
theorem pop_completes {s : State} (hc : 0 < s.count) (ht : s.tail < s.cfg.cap) :
    pop s = .next
      (readSlot s s.tail, { s with tail := (s.tail + 1) % s.cfg.cap, count := s.count - 1 }) := by
  unfold pop
  rw [if_neg (by omega), if_neg (by omega)]

/-- PUSH keeps the canonical form of the storage. -/
theorem push_wf {e : Sample} {s t : State} (h : push e s = .next t) (hw : Memory.wf s.buf = true) :
    Memory.wf t.buf = true := by
  obtain ⟨_, rfl⟩ | ⟨_, _, rfl⟩ := push_cases h
  · exact hw
  · exact write_wf _ _ _ hw

/-- POP leaves the storage as it is. -/
theorem pop_buf {s : State} {p : Sample × State} (h : pop s = .next p) : p.2.buf = s.buf := by
  obtain ⟨_, _, rfl⟩ := pop_cases h
  rfl

/-- The storage after a reset has the canonical form: nothing is listed. -/
theorem resetOf_wf (p : Config.Params) : Memory.wf (State.resetOf p).buf = true := rfl

theorem takeReset_wf (s : State) : Memory.wf (takeReset s).buf = true := rfl

/-! ## The queues and EMIT -/

theorem room_none (u n : Nat) : room none u n = true := rfl

theorem room_some (d u n : Nat) : room (some d) u n = true ↔ u + n ≤ d := by simp [room]

/-- Room for more bytes is room for fewer. -/
theorem room_mono {d : Option Nat} {u v : Nat} (h : v ≤ u) (hr : room d u 0 = true) : room d v 0 = true := by
  cases d with
  | none => rfl
  | some d =>
    rw [room_some] at hr ⊢
    omega

theorem room_after {d : Option Nat} {u n : Nat} (hr : room d u n = true) : room d (u + n) 0 = true := by
  cases d with
  | none => rfl
  | some d =>
    rw [room_some] at hr ⊢
    omega

theorem encodeFrame_length (e : Sample) : (encodeFrame e).length = frameLen e.mark := by
  cases h : e.mark <;> simp [encodeFrame, frameLen, h]

/-- EMIT with room appends the whole frame. -/
theorem emit_room {e : Sample} {s : State} (h : rspRoom s (frameLen e.mark) = true) :
    emit e s = { s with rspOut := s.rspOut ++ encodeFrame e } := by
  simp [emit, h]

/-- EMIT without room holds. -/
theorem emit_hold {e : Sample} {s : State} (h : rspRoom s (frameLen e.mark) = false) : emit e s = s := by
  simp [emit, h]

end Sys2Proof.Machine
end

