-- ==== Sys2Proof/Laws/Exec.lean ====
section
/-! SUPPORT. What exec can do: a command writes the mask or the trigger fields, a response frame writes `rsp_out`,
and every instruction answers a next state. -/

namespace Sys2Proof.Machine

/-- Every instruction answers a next state, in every state (60_exceptions.md R141). -/
theorem exec_completes (i : Instr) (s : State) : ∃ t, exec i s = .next t := by
  cases i <;> exact ⟨_, rfl⟩

/-- A command frame answers the state it was given but for the mask and the trigger fields. -/
theorem exec_command_cases {i : Instr} {s t : State} (hi : i.isCommand = true) (h : exec i s = .next t) :
    t = { s with mask := t.mask, trig := t.trig } := by
  cases i <;> first
    | (cases h; rfl)
    | simp [Instr.isCommand] at hi

/-- The meaning of a response frame is the emission of its sample (40_protocol_codec.md R91). -/
@[simp] theorem exec_responseOf (e : Sample) (s : State) : exec (responseOf e) s = .next (emit e s) := by
  obtain ⟨m, c, w⟩ := e
  cases m <;> rfl

/-- The decoder answers command frames only. -/
theorem decodeCommand_isCommand (cmd v : Byte) : (decodeCommand cmd v).isCommand = true := by
  unfold decodeCommand decodeTrigger
  repeat' split
  all_goals rfl

/-- Everything a command can do to the mask and the trigger fields. -/
theorem exec_command_effects {i : Instr} {s t : State} (hi : i.isCommand = true) (h : exec i s = .next t) :
    (∃ c, i = .chen c ∧ t.mask = maskSet (maskEvict s.mask c) c ∧ t.trig = s.trig) ∨
    (∃ c, i = .chdis c ∧ t.mask = maskClear s.mask c ∧ t.trig = s.trig) ∨
    (t.mask = s.mask ∧
      ((i = .trigon ∧ t.trig = { s.trig with enabled := true, armed := true, triggered := false }) ∨
       (i = .trigoff ∧ t.trig = { s.trig with enabled := false, armed := false }) ∨
       (∃ c, i = .trigch c ∧ t.trig = { s.trig with channel := c }) ∨
       (∃ n, i = .lvlhi n ∧ t.trig = { s.trig with levelStage := n }) ∨
       (∃ n, i = .lvllo n ∧ t.trig = { s.trig with level := levelOf s.trig.levelStage n }) ∨
       (∃ r, i = .edge r ∧ t.trig = { s.trig with edge := r }) ∨
       (i = .force ∧ t.trig = { s.trig with triggered := true }) ∨
       (((∃ n, i = .trigrsv6_7 n) ∨ (∃ n, i = .trigrsv8_15 n) ∨ ∃ k v, i = .cmdnop k v) ∧
         t.trig = s.trig))) := by
  cases i <;> first
    | (simp [Instr.isCommand] at hi; done)
    | (cases h; simp)

/-! ## The channel gate (41_channel_gate.md R97) -/

theorem popcount_maskClear_le (m : Mask) (c : Chan) : popcount (maskClear m c) ≤ popcount m := by
  revert m c
  decide

/-- CHEN's new mask holds at most two channels, the enabled one among them. -/
theorem popcount_chen_le (m : Mask) (c : Chan) (h : popcount m ≤ 2) :
    popcount (maskSet (maskEvict m c) c) ≤ 2 := by
  revert m c
  decide

end Sys2Proof.Machine
end

