-- ==== Sys2Proof/Laws/PerInstr.lean ====
section
/-! SUPPORT. Statements for all instructions, one lemma per constructor. FrameShape: an instruction's frame starts
with FRAME_START, a command's has 3 bytes, DATA has 5 and DATAMK has 6 (30_encoding.md R61, R71, R76). -/

namespace Sys2Proof.Laws.FrameShape

/-- The length of an instruction's frame (30_encoding.md R71, R76). -/
def lengthOf (i : Instr) : Nat := if i.isCommand then 3 else frameLen (decide (i.mnemonic = "DATAMK"))

/-- The frame starts with FRAME_START and has the length of its kind. -/
def Statement (i : Instr) : Prop := (encode i).head? = some 0xAA#8 ∧ (encode i).length = lengthOf i

theorem chen (c : Chan) : Statement (.chen c) := ⟨rfl, rfl⟩
theorem chdis (c : Chan) : Statement (.chdis c) := ⟨rfl, rfl⟩
theorem trigon : Statement .trigon := ⟨rfl, rfl⟩
theorem trigoff : Statement .trigoff := ⟨rfl, rfl⟩
theorem trigch (c : Chan) : Statement (.trigch c) := ⟨rfl, rfl⟩
theorem lvlhi (n : Nibble) : Statement (.lvlhi n) := ⟨rfl, rfl⟩
theorem lvllo (n : Nibble) : Statement (.lvllo n) := ⟨rfl, rfl⟩
theorem edge (r : Edge) : Statement (.edge r) := ⟨rfl, rfl⟩
theorem force : Statement .force := ⟨rfl, rfl⟩
theorem trigrsv6_7 (s : Nibble) : Statement (.trigrsv6_7 s) := ⟨rfl, rfl⟩
theorem trigrsv8_15 (s : Nibble) : Statement (.trigrsv8_15 s) := ⟨rfl, rfl⟩
theorem cmdnop (k v : Byte) : Statement (.cmdnop k v) := ⟨rfl, rfl⟩
theorem data (c : Chan) (raw : Word) : Statement (.data c raw) :=
  ⟨rfl, by simp [encode, Machine.encodeFrame_length, lengthOf, Instr.isCommand, Instr.mnemonic]⟩
theorem datamk (c : Chan) (raw : Word) : Statement (.datamk c raw) :=
  ⟨rfl, by simp [encode, Machine.encodeFrame_length, lengthOf, Instr.isCommand, Instr.mnemonic]⟩

end Sys2Proof.Laws.FrameShape
end

