-- ==== Sys2Proof/Laws/Step.lean ====
section
/-! SUPPORT. What a step can do, said once: an inversion of each sequencer step, of the block's step and of the
machine's step. -/

namespace Sys2Proof.Machine

/-- Everything the CMD step can do (44_acquisition_cycle.md R127, 40_protocol_codec.md R84). -/
theorem cmdStep_cases {s t : State} (h : cmdStep s = .next t) :
    (s.cmdIn = [] ∧ t = { s with phase := .waitSmp }) ∨
    ∃ b rest, s.cmdIn = b :: rest ∧
      ((s.dstate = .idle ∧ b = frameStart ∧ t = { s with cmdIn := rest, dstate := .gotStart }) ∨
       (s.dstate = .idle ∧ b ≠ frameStart ∧ t = { s with cmdIn := rest }) ∨
       (s.dstate = .gotStart ∧ t = { s with cmdIn := rest, dcmd := b, dstate := .gotCmd }) ∨
       (s.dstate = .gotCmd ∧
         exec (decodeCommand s.dcmd b) { s with cmdIn := rest, dstate := .idle } = .next t)) := by
  unfold cmdStep at h
  split at h
  · rename_i hc
    cases h
    exact .inl ⟨hc, rfl⟩
  · rename_i b rest hc
    refine .inr ⟨b, rest, hc, ?_⟩
    unfold decodeByte at h
    split at h
    · rename_i hd
      split at h
      · rename_i hb
        cases h
        exact .inl ⟨hd, hb, rfl⟩
      · rename_i hb
        cases h
        exact .inr (.inl ⟨hd, hb, rfl⟩)
    · rename_i hd
      cases h
      exact .inr (.inr (.inl ⟨hd, rfl⟩))
    · rename_i hd
      exact .inr (.inr (.inr ⟨hd, h⟩))

/-- Everything the WAIT_SMP step can do (44_acquisition_cycle.md R128). -/
theorem waitSmpStep_cases {s t : State} (h : waitSmpStep s = .next t) :
    (s.smpIn = [] ∧ t = s) ∨
    ∃ g rest, s.smpIn = g :: rest ∧
      t = { s with smpIn := rest, grp := g, sidx := 0#2, phase := .smp } := by
  unfold waitSmpStep at h
  split at h
  · rename_i hg
    cases h
    exact .inl ⟨hg, rfl⟩
  · rename_i g rest hg
    cases h
    exact .inr ⟨g, rest, hg, rfl⟩

/-- Everything the SMP step can do (44_acquisition_cycle.md R129, R130): pass a disabled channel, hold, or take the
sample: EVAL, PUSH where the trigger is enabled, EMIT. -/
theorem smpStep_cases {s t : State} (h : smpStep s = .next t) :
    (maskBit s.mask s.sidx = false ∧ t = advanceSidx s) ∨
    (maskBit s.mask s.sidx = true ∧
      rspRoom s (frameLen (sampleOf s s.sidx (groupWord s.grp s.sidx)).mark) = false ∧ t = s) ∨
    (maskBit s.mask s.sidx = true ∧
      rspRoom s (frameLen (sampleOf s s.sidx (groupWord s.grp s.sidx)).mark) = true ∧
      ∃ u, pushIfEnabled (sampleOf s s.sidx (groupWord s.grp s.sidx))
          { s with trig := sampleTrig s.cfg.hystCode s.trig s.sidx (groupWord s.grp s.sidx) } = .next u ∧
        t = advanceSidx (emit (sampleOf s s.sidx (groupWord s.grp s.sidx)) u)) := by
  unfold smpStep at h
  split at h
  · rename_i hm
    cases h
    exact .inl ⟨by simpa using hm, rfl⟩
  · rename_i hm
    split at h
    · rename_i hr
      cases h
      exact .inr (.inl ⟨by simpa using hm, by simpa using hr, rfl⟩)
    · rename_i hr
      refine .inr (.inr ⟨by simpa using hm, by simpa using hr, ?_⟩)
      unfold sample at h
      obtain ⟨v, hv, h⟩ := andThen_eq_next.1 h
      obtain ⟨u, hu, hv⟩ := andThen_eq_next.1 hv
      rw [exec_responseOf] at hv
      cases hv
      cases h
      exact ⟨u, hu, rfl⟩

/-- Everything the DRAIN_CHECK step can do (44_acquisition_cycle.md R133). -/
theorem drainCheckStep_cases {s t : State} (h : drainCheckStep s = .next t) :
    (s.trig.triggered = true ∧ 0 < s.count ∧ t = { s with phase := .drain }) ∨
    (¬ (s.trig.triggered = true ∧ 0 < s.count) ∧ t = { s with phase := .delay }) := by
  unfold drainCheckStep at h
  split at h
  · rename_i hc
    cases h
    simp at hc
    exact .inl ⟨hc.1, hc.2, rfl⟩
  · rename_i hc
    cases h
    exact .inr ⟨by simpa using hc, rfl⟩

/-- Everything the DRAIN step can do (44_acquisition_cycle.md R134). -/
theorem drainStep_cases {s t : State} (h : drainStep s = .next t) :
    0 < s.count ∧ s.tail < s.cfg.cap ∧
    ((rspRoom s (frameLen (readSlot s s.tail).mark) = false ∧ t = s) ∨
     (rspRoom s (frameLen (readSlot s s.tail).mark) = true ∧
       t = finishDrain (emit (readSlot s s.tail)
         { s with tail := (s.tail + 1) % s.cfg.cap, count := s.count - 1 }))) := by
  unfold drainStep at h
  obtain ⟨p, hp, h⟩ := andThen_eq_next.1 h
  obtain ⟨hc, ht, rfl⟩ := pop_cases hp
  refine ⟨hc, ht, ?_⟩
  split at h
  · rename_i hr
    cases h
    exact .inl ⟨by simpa using hr, rfl⟩
  · rename_i hr
    obtain ⟨u, hu, h⟩ := andThen_eq_next.1 h
    rw [exec_responseOf] at hu
    cases hu
    cases h
    exact .inr ⟨by simpa using hr, rfl⟩

/-- The block's step is the step of its phase (44_acquisition_cycle.md R126). -/
theorem blockStep_cases {s t : State} (h : blockStep s = .next t) :
    (s.phase = .cmd ∧ cmdStep s = .next t) ∨
    (s.phase = .waitSmp ∧ waitSmpStep s = .next t) ∨
    (s.phase = .smp ∧ smpStep s = .next t) ∨
    (s.phase = .drainCheck ∧ drainCheckStep s = .next t) ∨
    (s.phase = .drain ∧ drainStep s = .next t) ∨
    (s.phase = .delay ∧ t = { s with phase := .cmd }) := by
  unfold blockStep at h
  cases hp : s.phase <;> simp only [hp] at h <;> try simp [h]
  cases h
  rfl

/-- PUSH where the trigger is enabled writes the buffer's fields only. -/
theorem pushIfEnabled_frame {e : Sample} {s t : State} (h : pushIfEnabled e s = .next t) :
    t = { s with buf := t.buf, head := t.head, count := t.count, dropCount := t.dropCount } := by
  unfold pushIfEnabled at h
  split at h
  · obtain ⟨_, rfl⟩ | ⟨_, _, rfl⟩ := push_cases h <;> rfl
  · cases h
    rfl

/-- A step of the block leaves the parameters, the turns, and what the other agents hold and repeat (20_memory.md
R55). -/
theorem blockStep_agents {s t : State} (h : blockStep s = .next t) :
    t.cfg = s.cfg ∧ t.sched = s.sched ∧ t.schedAgain = s.schedAgain ∧ t.hostPending = s.hostPending ∧
    t.hostAgain = s.hostAgain ∧ t.hostReceived = s.hostReceived ∧ t.convPending = s.convPending ∧
    t.convAgain = s.convAgain ∧ t.resetEpoch = s.resetEpoch := by
  obtain ⟨_, h⟩ | ⟨_, h⟩ | ⟨_, h⟩ | ⟨_, h⟩ | ⟨_, h⟩ | ⟨_, rfl⟩ := blockStep_cases h
  · obtain ⟨_, rfl⟩ | ⟨b, rest, _, ⟨_, _, rfl⟩ | ⟨_, _, rfl⟩ | ⟨_, rfl⟩ | ⟨_, he⟩⟩ := cmdStep_cases h
    iterate 4 simp
    rw [exec_command_cases (decodeCommand_isCommand _ _) he]
    simp
  · obtain ⟨_, rfl⟩ | ⟨g, rest, _, rfl⟩ := waitSmpStep_cases h <;> simp
  · obtain ⟨_, rfl⟩ | ⟨_, _, rfl⟩ | ⟨_, _, u, hu, rfl⟩ := smpStep_cases h
    iterate 2 simp
    rw [pushIfEnabled_frame hu]
    simp
  · obtain ⟨_, _, rfl⟩ | ⟨_, rfl⟩ := drainCheckStep_cases h <;> simp
  · obtain ⟨_, _, ⟨_, rfl⟩ | ⟨_, rfl⟩⟩ := drainStep_cases h <;> simp
  · simp

/-- The machine's step is the turn of one agent, on the state with that turn taken off the turns to come. -/
theorem step_cases {s t : State} (h : step s = .next t) :
    (BlockTurn s ∧ ∃ rest, blockStep { s with sched := rest } = .next t) ∨
    (∃ rest, turns s = .hostSend :: rest ∧ t = hostSend { s with sched := rest }) ∨
    (∃ rest, turns s = .hostTake :: rest ∧ t = hostTake { s with sched := rest }) ∨
    (∃ rest, turns s = .converter :: rest ∧ t = converterOffer { s with sched := rest }) ∨
    (∃ rest, turns s = .rst :: rest ∧ t = takeReset { s with sched := rest }) := by
  unfold step turnStep at h
  split at h
  · rename_i hs
    refine .inl ⟨.inl hs, s.sched, ?_⟩
    exact h
  · rename_i a rest hs
    cases a with
    | block => exact .inl ⟨.inr (by simp [turns, hs]), rest, h⟩
    | hostSend => cases h; exact .inr (.inl ⟨rest, hs, rfl⟩)
    | hostTake => cases h; exact .inr (.inr (.inl ⟨rest, hs, rfl⟩))
    | converter => cases h; exact .inr (.inr (.inr (.inl ⟨rest, hs, rfl⟩)))
    | rst => cases h; exact .inr (.inr (.inr (.inr ⟨rest, hs, rfl⟩)))

end Sys2Proof.Machine
end

