-- ==== Sys2Proof/Tests/Slice0.lean ====
section
/-! SUPPORT. The model's own tests. The expected results are those of spec/95_test_vectors.md (K, E, G, T, B and S
name its vectors) or are written out from the rule named. Then, for every obligation with hypotheses, a witness
that meets them. -/

namespace Sys2Proof.Tests

open Sys2Proof.Machine

/-- One view of an outcome that is a next state. -/
def got {α β : Type} (f : α → β) : Host.Outcome α Fault Refusal → Option β
  | .next a => some (f a)
  | .fault _ => none
  | .refused _ => none

/-! ## WellFormed: each check refuses an ill-formed term (30_encoding.md R68, R77) -/

theorem test_wellFormed_trigrsv6_7_below : (Instr.trigrsv6_7 5#4).wellFormed = false := by decide
theorem test_wellFormed_trigrsv6_7_above : (Instr.trigrsv6_7 8#4).wellFormed = false := by decide
theorem test_wellFormed_trigrsv8_15_below : (Instr.trigrsv8_15 7#4).wellFormed = false := by decide
theorem test_wellFormed_cmdnop_gate : (Instr.cmdnop 0xFF#8 0x00#8).wellFormed = false := by decide
theorem test_wellFormed_cmdnop_trigger : (Instr.cmdnop 0xFE#8 0x00#8).wellFormed = false := by decide
theorem test_wellFormed_accepts :
    (Instr.trigrsv6_7 6#4).wellFormed = true ∧ (Instr.trigrsv6_7 7#4).wellFormed = true ∧
    (Instr.trigrsv8_15 8#4).wellFormed = true ∧ (Instr.trigrsv8_15 15#4).wellFormed = true ∧
    (Instr.cmdnop 0xAA#8 0xFE#8).wellFormed = true := by decide

/-! ## Decoding: a word of each row, written out from 30_encoding.md R61–R66, R71 and R77 -/

/-- `AA FF 04` (G1), `AA FF FF` (G14). -/
theorem test_decode_chen :
    decodeTableWord 24 0xAAFF04 = some (.chen 0#2) ∧ decodeTableWord 24 0xAAFFFF = some (.chen 3#2) := by decide
/-- `AA FF 03` (G13), `AA FF AA` (K8). -/
theorem test_decode_chdis :
    decodeTableWord 24 0xAAFF03 = some (.chdis 3#2) ∧ decodeTableWord 24 0xAAFFAA = some (.chdis 2#2) := by decide
/-- `AA FE 10` (T18), `AA FE 30` (T21). -/
theorem test_decode_trigon :
    decodeTableWord 24 0xAAFE10 = some .trigon ∧ decodeTableWord 24 0xAAFE30 = some .trigon := by decide
/-- `AA FE 00` (T19), and bits 7:5 ignored. -/
theorem test_decode_trigoff :
    decodeTableWord 24 0xAAFE00 = some .trigoff ∧ decodeTableWord 24 0xAAFEE0 = some .trigoff := by decide
/-- The values 0x31 and 0xF1 (T15, T16), 0x11 (P3). -/
theorem test_decode_trigch :
    decodeTableWord 24 0xAAFE31 = some (.trigch 3#2) ∧ decodeTableWord 24 0xAAFEF1 = some (.trigch 3#2) ∧
    decodeTableWord 24 0xAAFE11 = some (.trigch 1#2) := by decide
/-- `AA FE 12` (T11), `AA FE 72` (P3). -/
theorem test_decode_lvlhi :
    decodeTableWord 24 0xAAFE12 = some (.lvlhi 1#4) ∧ decodeTableWord 24 0xAAFE72 = some (.lvlhi 7#4) := by decide
/-- `AA FE 23` (T11), `AA FE F3` (T12). -/
theorem test_decode_lvllo :
    decodeTableWord 24 0xAAFE23 = some (.lvllo 2#4) ∧ decodeTableWord 24 0xAAFEF3 = some (.lvllo 15#4) := by decide
/-- `AA FE 14`, `AA FE 04` (T17). -/
theorem test_decode_edge :
    decodeTableWord 24 0xAAFE14 = some (.edge .rising) ∧ decodeTableWord 24 0xAAFE04 = some (.edge .falling) := by
  decide
/-- `AA FE 05` (T20), `AA FE F5` (K6). -/
theorem test_decode_force :
    decodeTableWord 24 0xAAFE05 = some .force ∧ decodeTableWord 24 0xAAFEF5 = some .force := by decide
/-- `AA FE 06` (K5), and sub-command 7. -/
theorem test_decode_trigrsv6_7 :
    decodeTableWord 24 0xAAFE06 = some (.trigrsv6_7 6#4) ∧ decodeTableWord 24 0xAAFEA7 = some (.trigrsv6_7 7#4) := by
  decide
/-- `AA FE 0E` (T22), and sub-command 8. -/
theorem test_decode_trigrsv8_15 :
    decodeTableWord 24 0xAAFE0E = some (.trigrsv8_15 14#4) ∧ decodeTableWord 24 0xAAFE18 = some (.trigrsv8_15 8#4) := by
  decide
/-- `AA 01 23` (K4), `AA AA FE` (K2). -/
theorem test_decode_cmdnop :
    decodeTableWord 24 0xAA0123 = some (.cmdnop 0x01#8 0x23#8) ∧
    decodeTableWord 24 0xAAAAFE = some (.cmdnop 0xAA#8 0xFE#8) := by decide
/-- `AA 02 12 34 55` (E1), `AA 00 00 CC 55` (E5). -/
theorem test_decode_data :
    decodeTableWord 40 0xAA02123455 = some (.data 2#2 0x1234#16) ∧
    decodeTableWord 40 0xAA0000CC55 = some (.data 0#2 0x00CC#16) := by decide
/-- `AA 00 80 00 CC 55` (E2), `AA 01 AA 55 CC 55` (E6). -/
theorem test_decode_datamk :
    decodeTableWord 48 0xAA008000CC55 = some (.datamk 0#2 0x8000#16) ∧
    decodeTableWord 48 0xAA01AA55CC55 = some (.datamk 1#2 0xAA55#16) := by decide
/-- No command starts with another byte than 0xAA (R69); no response has a channel byte above 3 (R72). -/
theorem test_decode_refuses :
    decodeTableWord 24 0x13FF05 = none ∧ decodeTableWord 40 0xAA04123455 = none ∧
    decodeTableWord 40 0xAA02123456 = none ∧ decodeTableWord 48 0xAA008000CC54 = none ∧
    decode [0xAA#8, 0xFE#8] = .error .truncated := by decide

/-- The bytes of E1–E6 (40_protocol_codec.md R90). -/
theorem test_encodeFrame :
    encodeFrame ⟨false, 2#2, 0x1234#16⟩ = [0xAA#8, 0x02#8, 0x12#8, 0x34#8, 0x55#8] ∧
    encodeFrame ⟨true, 0#2, 0x8000#16⟩ = [0xAA#8, 0x00#8, 0x80#8, 0x00#8, 0xCC#8, 0x55#8] ∧
    encodeFrame ⟨false, 3#2, 0x55AA#16⟩ = [0xAA#8, 0x03#8, 0x55#8, 0xAA#8, 0x55#8] ∧
    encodeFrame ⟨true, 1#2, 0xFFFF#16⟩ = [0xAA#8, 0x01#8, 0xFF#8, 0xFF#8, 0xCC#8, 0x55#8] ∧
    encodeFrame ⟨false, 0#2, 0x00CC#16⟩ = [0xAA#8, 0x00#8, 0x00#8, 0xCC#8, 0x55#8] ∧
    encodeFrame ⟨true, 1#2, 0xAA55#16⟩ = [0xAA#8, 0x01#8, 0xAA#8, 0x55#8, 0xCC#8, 0x55#8] := by decide

/-- The canonical value bytes of R77, per row. -/
theorem test_encode_commands :
    ([.chen 3#2, .chdis 2#2, .trigon, .trigoff, .trigch 3#2, .lvlhi 7#4, .lvllo 15#4, .edge .rising, .edge .falling,
      .force, .trigrsv6_7 7#4, .trigrsv8_15 15#4, .cmdnop 0x01#8 0x23#8] : List Instr).map encode =
    [[0xAA#8, 0xFF#8, 0x07#8], [0xAA#8, 0xFF#8, 0x02#8], [0xAA#8, 0xFE#8, 0x10#8], [0xAA#8, 0xFE#8, 0x00#8],
     [0xAA#8, 0xFE#8, 0x31#8], [0xAA#8, 0xFE#8, 0x72#8], [0xAA#8, 0xFE#8, 0xF3#8], [0xAA#8, 0xFE#8, 0x14#8],
     [0xAA#8, 0xFE#8, 0x04#8], [0xAA#8, 0xFE#8, 0x05#8], [0xAA#8, 0xFE#8, 0x07#8], [0xAA#8, 0xFE#8, 0x0F#8],
     [0xAA#8, 0x01#8, 0x23#8]] := by decide

/-- LEVELV 2: `round(2 × 12.8) = 26 = 0x1A` (30_encoding.md R79), so LVLHI 1, LVLLO A; a volt value outside the codes
is clamped. -/
theorem test_pseudo_levelv :
    pseudoLevelV 2 = [.lvlhi 1#4, .lvllo 10#4] ∧ levelvCode 100 = 127#8 ∧ levelvCode (-100) = 128#8 := by
  decide +kernel

/-! ## The decoder's steps (40_protocol_codec.md R84, R87, R89) -/

/-- A CMD-phase state with bytes waiting. -/
def cmdState (bytes : List Byte) : State := { State.reset with cmdIn := bytes }

/-- `13` in IDLE is a SKIP (K1). -/
theorem test_step_skip : got id (step (cmdState [0x13#8, 0xAA#8])) = some (cmdState [0xAA#8]) := by decide
/-- `AA FF` and nothing more: GOT_CMD with `dcmd = FF` (K11); the next step leaves the CMD phase (R127). -/
theorem test_steps_partial_frame :
    got (fun t => (t.dstate, t.dcmd, t.cmdIn, t.phase)) (blockSteps 3 (cmdState [0xAA#8, 0xFF#8])) =
      some (.gotCmd, 0xFF#8, [], .waitSmp) := by decide
/-- `13 AA FF 05` is exactly CHEN 1 (K1). -/
theorem test_steps_resync :
    got (fun t => (t.mask, t.dstate)) (blockSteps 4 (cmdState [0x13#8, 0xAA#8, 0xFF#8, 0x05#8])) =
      some (0b0010#4, .idle) := by decide
/-- `AA AA FE 10`: CMDNOP, then a SKIP (K2). -/
theorem test_steps_double_start :
    got (fun t => (t.trig.enabled, t.dstate)) (blockSteps 4 (cmdState [0xAA#8, 0xAA#8, 0xFE#8, 0x10#8])) =
      some (false, .idle) := by decide

/-! ## The channel gate: G2–G10 (41_channel_gate.md R95, R96) -/

/-- The state after reset with another mask. -/
def masked (m : Mask) : State := { State.reset with mask := m }

/-- The mask after a CHEN of each channel in G2, G3, G4, G5 and G6: a full pair. -/
theorem test_chen_full_pair :
    got (·.mask) (exec (.chen 2#2) (masked 0b0011#4)) = some 0b0110#4 ∧
    got (·.mask) (exec (.chen 1#2) (masked 0b0011#4)) = some 0b0010#4 ∧
    got (·.mask) (exec (.chen 0#2) (masked 0b0011#4)) = some 0b0011#4 ∧
    got (·.mask) (exec (.chen 0#2) (masked 0b1100#4)) = some 0b1001#4 ∧
    got (·.mask) (exec (.chen 3#2) (masked 0b1100#4)) = some 0b1000#4 := by decide
/-- G7–G11 and G15: one channel of each pair, and a single channel. -/
theorem test_chen_partner :
    got (·.mask) (exec (.chen 1#2) (masked 0b0101#4)) = some 0b0110#4 ∧
    got (·.mask) (exec (.chen 3#2) (masked 0b0101#4)) = some 0b1001#4 ∧
    got (·.mask) (exec (.chen 0#2) (masked 0b1010#4)) = some 0b1001#4 ∧
    got (·.mask) (exec (.chen 3#2) (masked 0b0110#4)) = some 0b1010#4 ∧
    got (·.mask) (exec (.chen 2#2) (masked 0b0101#4)) = some 0b0101#4 ∧
    got (·.mask) (exec (.chen 2#2) (masked 0b0001#4)) = some 0b0101#4 := by decide
/-- G12, G13. -/
theorem test_chdis :
    got id (exec (.chdis 0#2) (masked 0b0001#4)) = some (masked 0b0000#4) ∧
    got id (exec (.chdis 3#2) (masked 0b0000#4)) = some (masked 0b0000#4) := by decide

/-! ## The trigger commands: T11–T22 (42_trigger_engine.md R101–R109) -/

/-- The state after reset with other trigger fields. -/
def trigged (t : Trig) : State := { State.reset with trig := t }

/-- The engine of section L2.4: enabled, armed, RISING, level 0. -/
def armedTrig : Trig := ⟨true, true, false, false, .rising, 0#2, 0x0000#16, 0x0#4⟩

/-- T18: `above` is unchanged. -/
theorem test_trigon :
    got id (exec .trigon (trigged { armedTrig with enabled := false, armed := false, triggered := true, above := true })) =
      some (trigged { armedTrig with above := true }) := by decide
/-- T19: `triggered` is unchanged. -/
theorem test_trigoff :
    got id (exec .trigoff (trigged { armedTrig with triggered := true })) =
      some (trigged { armedTrig with enabled := false, armed := false, triggered := true }) := by decide
/-- T15. -/
theorem test_trigch : got id (exec (.trigch 3#2) (trigged armedTrig)) = some (trigged { armedTrig with channel := 3#2 }) := by
  decide
/-- T14: the level in use stays. -/
theorem test_lvlhi :
    got id (exec (.lvlhi 5#4) (trigged { armedTrig with level := 0x1200#16 })) =
      some (trigged { armedTrig with level := 0x1200#16, levelStage := 5#4 }) := by decide
/-- T13: a stale stage is used. -/
theorem test_lvllo :
    got id (exec (.lvllo 3#4) (trigged { armedTrig with levelStage := 15#4 })) =
      some (trigged { armedTrig with levelStage := 15#4, level := 0xF300#16 }) ∧ sint16 0xF300#16 = -3328 := by decide
/-- T17. -/
theorem test_edge :
    got id (exec (.edge .falling) (trigged armedTrig)) = some (trigged { armedTrig with edge := .falling }) := by decide
/-- T20: FIRED. -/
theorem test_force :
    got id (exec .force State.reset) = some (trigged { State.reset.trig with triggered := true }) ∧
    (got (fun t => engineState t.trig) (exec .force State.reset)) = some .fired := by decide
/-- K5, T22. -/
theorem test_trigrsv :
    got id (exec (.trigrsv6_7 6#4) (trigged armedTrig)) = some (trigged armedTrig) ∧
    got id (exec (.trigrsv8_15 14#4) (trigged armedTrig)) = some (trigged armedTrig) := by decide
/-- K4. -/
theorem test_cmdnop : got id (exec (.cmdnop 0x01#8 0x23#8) (trigged armedTrig)) = some (trigged armedTrig) := by decide

/-! ## Emission (40_protocol_codec.md R91) -/

/-- A state whose output queue has a depth and holds bytes. -/
def queued (d : Nat) (bytes : List Byte) : State :=
  { State.reset with cfg := { Config.Params.default with rspDepth := some d }, rspOut := bytes }

/-- E1's frame with exactly enough room, and no byte of it with one byte too few. -/
theorem test_data :
    got id (exec (.data 2#2 0x1234#16) (queued 6 [0x00#8])) =
      some (queued 6 [0x00#8, 0xAA#8, 0x02#8, 0x12#8, 0x34#8, 0x55#8]) ∧
    got id (exec (.data 2#2 0x1234#16) (queued 6 [0x00#8, 0x00#8])) = some (queued 6 [0x00#8, 0x00#8]) := by decide
/-- E2's frame, the same way. -/
theorem test_datamk :
    got id (exec (.datamk 0#2 0x8000#16) (queued 6 [])) =
      some (queued 6 [0xAA#8, 0x00#8, 0x80#8, 0x00#8, 0xCC#8, 0x55#8]) ∧
    got id (exec (.datamk 0#2 0x8000#16) (queued 6 [0x00#8])) = some (queued 6 [0x00#8]) := by decide

/-! ## Evaluation: T1–T10 (42_trigger_engine.md R100, R111) -/

/-- The markers along a sequence of codes, and the flags (above, armed, triggered) at its end. -/
def evalRun (hyst : Nat) (t : Trig) (codes : List Int) : List Bool × Bool × Bool × Bool :=
  let ws := codes.map (BitVec.ofInt 16)
  let u := evalSeq hyst t ws
  (evalMarks hyst t ws, u.above, u.armed, u.triggered)

theorem test_eval_rising :
    evalRun 1638 armedTrig [-2000, 2000] = ([false, true], true, false, true) ∧
    evalRun 1638 armedTrig [-1638, 1638, -1638, 1638] = ([false, false, false, false], false, true, false) ∧
    evalRun 1638 armedTrig [-32768, 32767] = ([false, true], true, false, true) ∧
    evalRun 0 armedTrig [0, 1] = ([false, true], true, false, true) := by decide
theorem test_eval_falling :
    evalRun 1638 { armedTrig with edge := .falling } [2000, -2000] = ([false, true], false, false, true) ∧
    evalRun 1638 { armedTrig with edge := .falling, above := true, level := 0x8000#16 } [-32768] =
      ([false], true, true, false) := by decide
theorem test_eval_flag_history :
    evalRun 1638 { armedTrig with above := true } [2000, 3000] = ([false, false], true, true, false) ∧
    evalRun 1638 { armedTrig with above := true } [2000, -2000, 2000] = ([false, false, true], true, false, true) ∧
    evalRun 1638 { armedTrig with armed := false } [-2000, 2000] = ([false, false], true, false, false) ∧
    evalRun 1638 { armedTrig with level := 0x7F00#16 } [32767] = ([false], false, true, false) := by decide

/-! ## The ring buffer: B1–B7 (43_ring_buffer.md R118, R120) -/

/-- An unmarked sample of channel 0. -/
def smp (w : Word) : Sample := ⟨false, 0#2, w⟩

/-- A state with a capacity. -/
def ring (cap : Nat) : State := { State.reset with cfg := { Config.Params.default with cap := cap } }

/-- B1 and B2: the fourth PUSH on CAP = 3 is dropped; the POPs answer a, b, c. -/
theorem test_ring_fifo :
    got (fun t => (t.head, t.tail, t.count, t.dropCount)) (pushAll [smp 1#16, smp 2#16, smp 3#16, smp 4#16] (ring 3)) =
      some (0, 0, 3, 1#16) ∧
    got (fun r => (r.2.2, r.1.count, r.1.tail)) (bufRun
      [.push (smp 1#16), .push (smp 2#16), .push (smp 3#16), .push (smp 4#16), .pop, .pop, .pop] (ring 3)) =
      some ([smp 1#16, smp 2#16, smp 3#16], 0, 0) := by decide
/-- B4 and B5: the indices wrap from 999 to 0. -/
theorem test_ring_wrap :
    got id (push (smp 7#16) { State.reset with head := 999, count := 999 }) =
      some { State.reset with head := 0, count := 1000, buf := [(999, smp 7#16)] } ∧
    got id (pop { State.reset with tail := 999, count := 1, buf := [(999, smp 7#16)] }) =
      some (smp 7#16, { State.reset with tail := 0, count := 0, buf := [(999, smp 7#16)] }) := by decide
/-- B6: `drop_count` saturates. B7: CAP = 1. -/
theorem test_ring_saturation :
    got id (push (smp 7#16) { State.reset with count := 1000, dropCount := 0xFFFF#16 }) =
      some { State.reset with count := 1000, dropCount := 0xFFFF#16 } ∧
    got (fun r => (r.2.2, r.1.head, r.1.tail, r.1.dropCount)) (bufRun [.push (smp 1#16), .push (smp 2#16), .pop] (ring 1)) =
      some ([smp 1#16], 0, 0, 1#16) := by decide

/-! ## The sequencer: S1–S8 (44_acquisition_cycle.md R126–R137) -/

/-- A state at the start of an SMP phase: a mask, the trigger fields and the latched group. -/
def smpState (m : Mask) (t : Trig) (g : Group) : State :=
  { State.reset with phase := .smp, mask := m, trig := t, grp := g }

/-- S1: the frames of channels 1 and 3, in ascending order; nothing is pushed. -/
theorem test_cycle_order :
    got (fun t => (t.rspOut, t.count, t.phase))
      (blockSteps 4 (smpState 0b1010#4 State.reset.trig ⟨0x1111#16, 0x0102#16, 0x2222#16, 0x0304#16⟩)) =
      some ([0xAA#8, 0x01#8, 0x01#8, 0x02#8, 0x55#8, 0xAA#8, 0x03#8, 0x03#8, 0x04#8, 0x55#8], 0, .drainCheck) := by
  decide
/-- S3: the trigger watches another channel: pushed, never evaluated. -/
theorem test_cycle_other_channel :
    got (fun t => (t.rspOut, t.count, t.trig))
      (blockSteps 4 (smpState 0b0001#4 { armedTrig with channel := 2#2 } ⟨0x7000#16, 0#16, 0#16, 0#16⟩)) =
      some ([0xAA#8, 0x00#8, 0x70#8, 0x00#8, 0x55#8], 1, { armedTrig with channel := 2#2 }) := by decide
/-- S4: a trigger with an empty buffer stays pending. -/
theorem test_cycle_pending :
    got (fun t => (t.phase, t.trig.triggered))
      (step { State.reset with phase := .drainCheck, trig := { armedTrig with triggered := true } }) =
      some (.delay, true) := by decide
/-- S5: fire, drain of both samples, re-arm; four SMP steps, DRAIN_CHECK and two DRAIN steps. -/
theorem test_cycle_fire_and_drain :
    got (fun t => (t.rspOut, t.count, t.trig, t.phase))
      (blockSteps 7 (smpState 0b0011#4 armedTrig ⟨0x199A#16, 0x0001#16, 0#16, 0#16⟩)) =
      some ([0xAA#8, 0x00#8, 0x19#8, 0x9A#8, 0xCC#8, 0x55#8, 0xAA#8, 0x01#8, 0x00#8, 0x01#8, 0x55#8,
             0xAA#8, 0x00#8, 0x19#8, 0x9A#8, 0xCC#8, 0x55#8, 0xAA#8, 0x01#8, 0x00#8, 0x01#8, 0x55#8],
            0, { armedTrig with above := true }, .delay) := by decide

/-- The ports: `smp_ready` only in WAIT_SMP, `cmd_ready` while a byte fits, `rsp_valid` with the oldest byte, and the
status view (10_state.md R41–R44); the widths of R7: 10 and 10 for CAP = 1000. -/
theorem test_ports :
    smpReady { State.reset with phase := .waitSmp } = true ∧ smpReady State.reset = false ∧
    cmdReady State.reset = true ∧ rspValid (queued 6 [0xAA#8, 0x00#8]) = true ∧
    rspData (queued 6 [0xAA#8, 0x00#8]) = some 0xAA#8 ∧ rspValid State.reset = false ∧
    idxWidth 1000 = 10 ∧ countWidth 1000 = 10 ∧ idxWidth 1024 = 10 ∧ countWidth 1024 = 11 ∧ idxWidth 1 = 0 ∧
    (status { State.reset with head := 999 }).head.toNat = 999 ∧
    (status State.reset).edge = true ∧ (status { State.reset with phase := .delay }).phase = 5#3 := by decide

/-! ## Placing a table word and stepping (log 12): one step runs the instruction, first after reset -/

theorem test_placed_command :
    got (fun t => (t.mask, t.cmdIn, t.dstate)) (step (State.reset.withFetchWord 24 0xAAFF06)) =
      some (0b0100#4, [], .idle) ∧
    got (fun t => t.trig.triggered) (step (State.reset.withFetchWord 24 0xAAFE05)) = some true := by decide
theorem test_placed_response :
    got (·.rspOut) (step (State.reset.withFetchWord 40 0xAA02123455)) =
      some [0xAA#8, 0x02#8, 0x12#8, 0x34#8, 0x55#8] ∧
    got (·.rspOut) (step (State.reset.withFetchWord 48 0xAA008000CC55)) =
      some [0xAA#8, 0x00#8, 0x80#8, 0x00#8, 0xCC#8, 0x55#8] := by decide

/-! ## Reset and the other agents (70_reset_and_hazards.md R155, 10_state.md R41) -/

theorem test_reset_turn :
    got (fun t => (t.phase, t.mask, t.trig, t.cmdIn, t.sched))
      (step { smpState 0b0011#4 armedTrig ⟨1#16, 2#16, 3#16, 4#16⟩ with sched := [.rst], cmdIn := [0xAA#8] }) =
      some (.cmd, 0b0000#4, State.reset.trig, [], []) := by decide
theorem test_agent_turns :
    got (fun t => (t.cmdIn, t.hostPending)) (step { State.reset with sched := [.hostSend], hostPending := [0x01#8] }) =
      some ([0x01#8], []) ∧
    got (fun t => (t.rspOut, t.hostReceived)) (step { State.reset with sched := [.hostTake], rspOut := [0x01#8] }) =
      some ([], [0x01#8]) ∧
    got (fun t => (t.smpIn.length, t.convPending.length))
      (step { State.reset with sched := [.converter], convPending := [⟨1#16, 2#16, 3#16, 4#16⟩] }) = some (1, 0) := by
  decide
/-- The turns, the bytes and the groups that repeat are taken up once the pending ones are used up (logs 3, 4). -/
theorem test_repeating_agents :
    got (fun t => (t.cmdIn, t.hostPending, t.sched))
      (step { State.reset with schedAgain := [.hostSend, .block], hostAgain := [0x01#8, 0x02#8] }) =
      some ([0x01#8], [0x02#8], [.block]) ∧
    got (fun t => (t.cmdIn, t.hostPending))
      (step { State.reset with sched := [.hostSend], hostPending := [0x09#8], hostAgain := [0x01#8] }) =
      some ([0x09#8], []) ∧
    got (fun t => (t.smpIn, t.convAgain))
      (step { State.reset with sched := [.converter], convAgain := [⟨1#16, 2#16, 3#16, 4#16⟩] }) =
      some ([⟨1#16, 2#16, 3#16, 4#16⟩], [⟨1#16, 2#16, 3#16, 4#16⟩]) := by decide
/-- With nothing placed, the CMD step after reset goes on to WAIT_SMP, which holds (R127, R128; log 12). -/
theorem test_first_steps :
    got id (step State.reset) = some { State.reset with phase := .waitSmp } ∧
    got id (step { State.reset with phase := .waitSmp }) = some { State.reset with phase := .waitSmp } := by decide

/-! ## Witnesses: for each obligation with hypotheses, states and operands that meet all of them -/

/-- CAP = 3, mask {0,1}, a fire on channel 1 not yet drained: an unmarked entry and a marked one, in any phase. -/
def firedState (ph : Phase) : State :=
  { State.reset with
    phase := ph, cfg := { Config.Params.default with cap := 3 }, mask := 0b0011#4
    trig := ⟨true, false, true, true, .rising, 1#2, 0x0000#16, 0x0#4⟩
    buf := [(0, ⟨true, 1#2, 0x199A#16⟩), (2, smp 0x0001#16)], head := 1, tail := 2, count := 2 }

/-- The same with an output queue of 6 bytes that is full. -/
def stuckState (ph : Phase) : State :=
  { firedState ph with
    cfg := { Config.Params.default with cap := 3, rspDepth := some 6 }
    rspOut := [0xAA#8, 0x00#8, 0x80#8, 0x00#8, 0xCC#8, 0x55#8] }

/-- A full buffer of CAP = 1 before the SMP step of channel 0, which fires. -/
def firingState : State :=
  { State.reset with
    phase := .smp, cfg := { Config.Params.default with cap := 1 }, mask := 0b0001#4, trig := armedTrig
    grp := ⟨0x199A#16, 0#16, 0#16, 0#16⟩, buf := [(0, smp 0x0001#16)], count := 1 }

/-- A sound state that holds an entry of its only slot, in the last DRAIN step. -/
def lastDrainState : State :=
  { firingState with phase := .drain, trig := { armedTrig with armed := false, triggered := true } }

/-- A CMD-phase state whose next byte completes a frame, with the trigger armed and set. -/
def gotCmdState (cmd v : Byte) : State :=
  { State.reset with
    dstate := .gotCmd, dcmd := cmd, cmdIn := [v], trig := { armedTrig with triggered := true } }

theorem params_ok {p : Config.Params} (h1 : 1 ≤ p.cap) (h2 : popcount p.maskReset ≤ 2)
    (h3 : 3 ≤ p.cmdDepth.getD 3) (h4 : 6 ≤ p.rspDepth.getD 6) : ParamsOk p :=
  ⟨h1, h2, fun d h => by simpa [h] using h3, fun d h => by simpa [h] using h4⟩

/-- The invariant of a concrete state, as one decidable fact. -/
abbrev InvData (s : State) : Prop :=
  (1 ≤ s.cfg.cap ∧ popcount s.cfg.maskReset ≤ 2 ∧ 3 ≤ s.cfg.cmdDepth.getD 3 ∧ 6 ≤ s.cfg.rspDepth.getD 6) ∧
  popcount s.mask ≤ 2 ∧ (s.trig.armed = true → s.trig.enabled = true) ∧ Memory.wf s.buf = true ∧
  (∀ p ∈ s.buf, p.1 < s.cfg.cap) ∧ s.head < s.cfg.cap ∧ s.tail < s.cfg.cap ∧ s.count ≤ s.cfg.cap ∧
  s.head = (s.tail + s.count) % s.cfg.cap ∧
  (∀ k, k < s.count → (Memory.lookup s.buf (liveIndex s k)).isSome = true) ∧
  (s.phase = .drain → 0 < s.count) ∧ (s.phase = .drain → s.trig.triggered = true) ∧
  cmdRoom s 0 = true ∧ rspRoom s 0 = true

theorem inv_of_data {s : State} (h : InvData s) : Inv s :=
  let ⟨⟨a, b, c, d⟩, e, f, g, i, j, k, l, m, n, o, p, q, r⟩ := h
  ⟨params_ok a b c d, e, f, g, i, j, k, l, m, n, o, p, q, r⟩

theorem firedState_inv (ph : Phase) : Inv (firedState ph) := by
  cases ph <;> exact inv_of_data (by decide)
theorem stuckState_inv (ph : Phase) : Inv (stuckState ph) := by
  cases ph <;> exact inv_of_data (by decide)
theorem firingState_inv : Inv firingState := inv_of_data (by decide)
theorem lastDrainState_inv : Inv lastDrainState := inv_of_data (by decide)

theorem firedState_marks : MarkInv (firedState .drain) where
  marks_le := by decide
  marked_phase := fun _ => .inr (.inr rfl)
  marked_armed := fun _ => rfl
  marked_triggered := fun _ => rfl

theorem witness_ResetGivesSpecifiedValues : AtReset (ring 3) := by
  constructor <;> rfl

/-- The smallest parameters, and a full mask. -/
theorem witness_ResetStatesAreSound : ParamsOk ⟨1, 0, 0b0011#4, some 3, some 6, 0⟩ :=
  params_ok (by decide) (by decide) (by decide) (by decide)

theorem witness_EveryStepKeepsInvariant :
    Inv (firedState .drain) ∧ ∃ t, step (firedState .drain) = .next t ∧ t.count = 1 :=
  ⟨firedState_inv _, _, rfl, rfl⟩

theorem witness_NoStepStopsInASoundState : Inv (firedState .drain) ∧ Inv (firedState .smp) ∧ Inv firingState :=
  ⟨firedState_inv _, firedState_inv _, firingState_inv⟩

theorem witness_EveryStepKeepsMarkInvariant :
    Inv (firedState .drain) ∧ MarkInv (firedState .drain) ∧ liveMarks (firedState .drain) = 1 ∧
      ∃ t, step (firedState .drain) = .next t :=
  ⟨firedState_inv _, firedState_marks, rfl, _, rfl⟩

/-- The spec's capacity: the state of one marked sample in CAP = 1000. -/
def markedAtCap1000 : State :=
  { firedState .drain with
    cfg := Config.Params.default, buf := [(0, ⟨true, 1#2, 0x199A#16⟩)], head := 1, tail := 0, count := 1 }

theorem witness_DrainBurstIsBounded :
    Inv markedAtCap1000 ∧ MarkInv markedAtCap1000 ∧ markedAtCap1000.cfg.cap = 1000 := by
  exact ⟨inv_of_data (by decide), ⟨by decide, fun _ => .inr (.inr rfl), fun _ => rfl, fun _ => rfl⟩, rfl⟩

theorem witness_PhasesFollowTheCycle (ph : Phase) :
    ∃ t, blockStep (firedState ph) = .next t ∧ (firedState ph).phase = ph := by
  cases ph <;> exact ⟨_, rfl, rfl⟩

theorem witness_BlockIsStuckExactlyWhereItHolds :
    (Inv (stuckState .waitSmp) ∧ (stuckState .waitSmp).smpIn = []) ∧
    (Inv (stuckState .smp) ∧ got id (blockStep (stuckState .smp)) = some (stuckState .smp)) ∧
    (Inv (stuckState .drain) ∧ rspRoom (stuckState .drain) 5 = false) ∧
    (Inv (firedState .drain) ∧ got id (blockStep (firedState .drain)) ≠ some (firedState .drain)) :=
  ⟨⟨stuckState_inv _, rfl⟩, ⟨stuckState_inv _, by decide⟩, ⟨stuckState_inv _, by decide⟩,
    firedState_inv _, by decide⟩

theorem witness_OtherAgentsChangeOnlyQueuesAndPort :
    (∃ t, agentStep .hostSend { firingState with hostPending := [0xAA#8] } = .next t ∧ t.cmdIn = [0xAA#8]) ∧
    (∃ t, agentStep .hostTake (stuckState .smp) = .next t ∧ t.rspOut.length = 5) ∧
    (∃ t, agentStep .converter { firingState with convPending := [firingState.grp] } = .next t ∧
      t.smpIn = [firingState.grp]) :=
  ⟨⟨_, rfl, rfl⟩, ⟨_, rfl, rfl⟩, _, rfl, rfl⟩

theorem not_rst_turn {s : State} (h : turns s = []) : ¬ RstTurn s := by
  simp [RstTurn, h]

/-- A step that emits a frame (also of DrainRunsToCompletion, CommandsWaitOutsideTheCmdPhase). -/
theorem witness_OutputStreamGrowsByWholeFrames :
    ¬ RstTurn (firedState .drain) ∧ (firedState .drain).phase = .drain ∧
      ∃ t, step (firedState .drain) = .next t ∧ t.rspOut.length = 5 :=
  ⟨not_rst_turn rfl, rfl, _, rfl, rfl⟩

/-- The state after reset with a host that appends stray bytes forever, one or two before each step of the block. -/
def starvedState : State :=
  { State.reset with schedAgain := [.hostSend, .hostSend, .block], hostAgain := [0x55#8] }

/-- A byte taken by the block; and a byte of those the host repeats. -/
theorem witness_CommandStreamKeepsItsBytes :
    (¬ RstTurn (gotCmdState 0xFF#8 0x04#8) ∧ ∃ t, step (gotCmdState 0xFF#8 0x04#8) = .next t ∧ t.cmdIn = []) ∧
    (¬ RstTurn starvedState ∧ starvedState.hostPending = [] ∧
      ∃ t, step starvedState = .next t ∧ t.cmdIn = [0x55#8] ∧ t.hostAgain = [0x55#8]) :=
  ⟨⟨not_rst_turn rfl, _, rfl, rfl⟩, (fun h => nomatch Option.some.inj h), rfl, _, rfl, rfl, rfl⟩

theorem witness_CommandsWaitOutsideTheCmdPhase :
    ¬ RstTurn (firedState .drain) ∧ (firedState .drain).phase ≠ .cmd ∧ (firedState .drain).phase ≠ .waitSmp ∧
      ∃ t, step (firedState .drain) = .next t :=
  ⟨not_rst_turn rfl, by decide, by decide, _, rfl⟩

theorem witness_ConfigurationChangesOnlyByItsCommand :
    (∃ t, step (gotCmdState 0xFF#8 0x04#8) = .next t ∧ t.mask ≠ (gotCmdState 0xFF#8 0x04#8).mask) ∧
    (∃ t, step (gotCmdState 0xFE#8 0x04#8) = .next t ∧ t.trig.edge ≠ (gotCmdState 0xFE#8 0x04#8).trig.edge) ∧
    (∃ t, step (gotCmdState 0xFE#8 0x31#8) = .next t ∧ t.trig.channel ≠ (gotCmdState 0xFE#8 0x31#8).trig.channel) ∧
    (∃ t, step (gotCmdState 0xFE#8 0x13#8) = .next t ∧ t.trig.level ≠ (gotCmdState 0xFE#8 0x13#8).trig.level) ∧
    (∃ t, step (gotCmdState 0xFE#8 0x12#8) = .next t ∧
      t.trig.levelStage ≠ (gotCmdState 0xFE#8 0x12#8).trig.levelStage) ∧
    ∀ c v, ¬ RstTurn (gotCmdState c v) :=
  ⟨⟨_, rfl, by decide⟩, ⟨_, rfl, by decide⟩, ⟨_, rfl, by decide⟩, ⟨_, rfl, by decide⟩, ⟨_, rfl, by decide⟩,
    fun _ _ => not_rst_turn rfl⟩

/-- TRIGOFF, TRIGON, a fire, and the end of a drain: each change of each flag. -/
theorem witness_FlagsChangeOnlyByTheirWriters :
    (∃ t, step (gotCmdState 0xFE#8 0x00#8) = .next t ∧ t.trig.enabled = false ∧ t.trig.armed = false) ∧
    (∃ t, step (gotCmdState 0xFE#8 0x10#8) = .next t ∧ t.trig.triggered = false) ∧
    (∃ t, step firingState = .next t ∧ firingState.trig.triggered = false ∧ t.trig.triggered = true ∧
      t.trig.armed = false ∧ t.trig.above ≠ firingState.trig.above) ∧
    (∃ t, step lastDrainState = .next t ∧ lastDrainState.trig.armed = false ∧ t.trig.armed = true) ∧
    ¬ RstTurn firingState ∧ ¬ RstTurn lastDrainState :=
  ⟨⟨_, rfl, rfl, rfl⟩, ⟨_, rfl, rfl⟩, ⟨_, rfl, rfl, rfl, rfl, by decide⟩, ⟨_, rfl, rfl, rfl⟩, not_rst_turn rfl,
    not_rst_turn rfl⟩

theorem witness_CommandsKeepTheBuffer :
    Instr.trigon.isCommand = true ∧
    ∃ t, step lastDrainState = .next t ∧ t.count < lastDrainState.count :=
  ⟨rfl, _, rfl, by decide⟩

theorem witness_DropCountOnlyCountsDrops :
    ¬ RstTurn firingState ∧ ∃ t, step firingState = .next t ∧ t.dropCount ≠ firingState.dropCount :=
  ⟨not_rst_turn rfl, _, rfl, by decide⟩

theorem witness_DecodeOfEncodeIsTheInstruction :
    ((Instr.trigrsv8_15 15#4).wellFormed = true ∧ (Instr.trigrsv8_15 15#4).isCommand = true) ∧
    ((Instr.datamk 3#2 0xCC55#16).wellFormed = true ∧ (Instr.datamk 3#2 0xCC55#16).isCommand = false) := by decide

theorem witness_IgnoredBitsHaveNoEffect :
    (0xFF#8 : Byte) ≠ 0x07#8 ∧ 0xFF#8 &&& usedBits 0xFF#8 0xFF#8 = 0x07#8 &&& usedBits 0xFF#8 0xFF#8 := by decide

theorem witness_StepRunsTheDecodedInstruction :
    (gotCmdState 0xFF#8 0x04#8).phase = .cmd ∧ (gotCmdState 0xFF#8 0x04#8).dstate = .gotCmd ∧
    (gotCmdState 0xFF#8 0x04#8).cmdIn = 0x04#8 :: [] ∧ turns (gotCmdState 0xFF#8 0x04#8) = [] ∧
    turns { gotCmdState 0xFF#8 0x04#8 with sched := [.block, .hostSend] } = .block :: [.hostSend] ∧
    (lastDrainState.phase = .drain ∧ 0 < lastDrainState.count ∧ lastDrainState.tail < lastDrainState.cfg.cap ∧
      readSlot lastDrainState lastDrainState.tail = smp 0x0001#16 ∧ rspRoom lastDrainState 5 = true ∧
      turns lastDrainState = []) := by decide

theorem witness_DecoderConsumesOneBytePerStep :
    ((cmdState []).phase = .cmd ∧ (cmdState []).cmdIn = []) ∧
    ((cmdState [0xAA#8]).phase = .cmd ∧ (cmdState [0xAA#8]).dstate = .idle) ∧ (0x13#8 : Byte) ≠ 0xAA#8 ∧
    ({ cmdState [0xAA#8] with dstate := .gotStart } : State).cmdIn = 0xAA#8 :: [] ∧
    (gotCmdState 0xFF#8 0xAA#8).dstate = .gotCmd := by decide

theorem witness_FrameExecutesInThreeSteps :
    (cmdState [0xAA#8, 0xFF#8, 0x04#8, 0x13#8]).phase = .cmd ∧
    (cmdState [0xAA#8, 0xFF#8, 0x04#8, 0x13#8]).dstate = .idle ∧
    (cmdState [0xAA#8, 0xFF#8, 0x04#8, 0x13#8]).cmdIn = [0xAA#8, 0xFF#8, 0x04#8] ++ [0x13#8] := by decide

theorem witness_CommandsExecuteInStreamOrder :
    (∀ i ∈ ([.trigon, .trigoff] : List Instr), i.wellFormed = true ∧ i.isCommand = true) ∧
    (cmdState [0xAA#8, 0xFE#8, 0x10#8, 0xAA#8, 0xFE#8, 0x00#8, 0xAA#8]).cmdIn =
      ([.trigon, .trigoff] : List Instr).flatMap encode ++ [0xAA#8] := by decide

theorem witness_StrayBytesAreSkipped :
    (∀ b ∈ ([0x13#8, 0x55#8] : List Byte), b ≠ 0xAA#8) ∧
    (cmdState [0x13#8, 0x55#8, 0xAA#8]).cmdIn = [0x13#8, 0x55#8] ++ [0xAA#8] := by decide

theorem witness_CommandPhaseEndsWhenTheQueueIsEmpty : (cmdState [0xAA#8, 0xFF#8]).phase = .cmd := by decide

theorem witness_ChenEvictsThenEnables : (0x07#8 : Byte).getLsbD 2 = true := by decide
theorem witness_ChdisClearsItsChannel : (0xFB#8 : Byte).getLsbD 2 = false := by decide

theorem witness_GateSequencesKeepAtMostTwoChannels :
    popcount (masked 0b0101#4).mask ≤ 2 ∧ (∃ t, exec (.chen 1#2) (masked 0b0101#4) = .next t) ∧
    (∃ t, exec (.chdis 1#2) (masked 0b0101#4) = .next t) ∧
    ∀ i ∈ ([.chen 1#2, .chdis 3#2] : List Instr), ∃ c, i = .chen c ∨ i = .chdis c := by
  refine ⟨by decide, ⟨_, rfl⟩, ⟨_, rfl⟩, fun i hi => ?_⟩
  rcases List.mem_pair.1 hi with rfl | rfl
  · exact ⟨1#2, .inl rfl⟩
  · exact ⟨3#2, .inr rfl⟩

theorem witness_TrigonArmsAndTrigoffDisarms :
    ((0x30#8 : Byte).extractLsb' 0 4 = 0#4 ∧ (0x30#8 : Byte).getLsbD 4 = true) ∧
    ((0xE0#8 : Byte).extractLsb' 0 4 = 0#4 ∧ (0xE0#8 : Byte).getLsbD 4 = false) ∧
    (∃ t, exec .trigoff (firedState .cmd) = .next t) ∧ (firedState .cmd).trig.triggered = true ∧
    0 < (firedState .cmd).count :=
  ⟨by decide, by decide, ⟨_, rfl⟩, rfl, by decide⟩

theorem witness_ReservedSubCommandsDoNothing :
    6 ≤ ((0xF6#8 : Byte).extractLsb' 0 4).toNat ∧ 6 ≤ ((0x0F#8 : Byte).extractLsb' 0 4).toNat := by decide
theorem witness_TrigchSetsTheChannel : (0xF1#8 : Byte).extractLsb' 0 4 = 1#4 := by decide
theorem witness_LvlhiStagesAndLvlloCommits :
    (0x52#8 : Byte).extractLsb' 0 4 = 2#4 ∧ (0x53#8 : Byte).extractLsb' 0 4 = 3#4 := by decide
theorem witness_EdgeSetsTheDirection :
    ((0x14#8 : Byte).extractLsb' 0 4 = 4#4 ∧ (0x14#8 : Byte).getLsbD 4 = true) ∧
    ((0xE4#8 : Byte).extractLsb' 0 4 = 4#4 ∧ (0xE4#8 : Byte).getLsbD 4 = false) := by decide
theorem witness_ForceSetsTriggered : (0xF5#8 : Byte).extractLsb' 0 4 = 5#4 := by decide
theorem witness_UnrecognisedCommandsDoNothing : (0xFD#8 : Byte) ≠ 0xFE#8 ∧ (0xFD#8 : Byte) ≠ 0xFF#8 := by decide

theorem witness_EngineStatesFollowTheFlags :
    (armedTrig.triggered = false ∧ armedTrig.armed = true) ∧ AtReset (ring 3) ∧
    (∃ t, exec .force State.reset = .next t) ∧ (∃ t, exec .trigon (firedState .cmd) = .next t) ∧
    ∃ t, exec .trigoff (trigged armedTrig) = .next t ∧ (trigged armedTrig).trig.triggered = false :=
  ⟨by decide, witness_ResetGivesSpecifiedValues, ⟨_, rfl⟩, ⟨_, rfl⟩, _, rfl, rfl⟩

theorem witness_CommandFrame : ∀ i ∈ ([.chen 0#2, .trigon, .lvllo 3#4] : List Instr), i.isCommand = true := by decide

theorem witness_EmissionAppendsOneFrameOrHolds :
    rspRoom (queued 6 [0x00#8]) 5 = true ∧ rspRoom (queued 6 [0x00#8, 0x00#8]) 5 = false ∧
    rspRoom (queued 6 []) 6 = true ∧ rspRoom (queued 6 [0x00#8]) 6 = false ∧ State.reset.cfg.rspDepth = none ∧
    (queued 6 []).cfg.rspDepth = some 6 ∧ ∃ t, exec (.data 0#2 0#16) (queued 6 []) = .next t := by
  exact ⟨by decide, by decide, by decide, by decide, rfl, rfl, _, rfl⟩

/-- A half-width of 1/2 V: `floor(1638.4) = 1638`, the default (00_scope.md R8). -/
theorem witness_CodeComparisonIsVoltageComparison :
    (0 : Rat) ≤ 1 / 2 ∧ ((1638 : Nat) : Int) = ((1 / 2 : Rat) * (32768 / 10)).floor := by decide +kernel

theorem witness_EvalIsASchmittTrigger :
    evalFires 1638 armedTrig 0x199A#16 = true ∧ evalFires 1638 armedTrig 0x0666#16 = false ∧
    armedTrig.above = false ∧ ({ armedTrig with above := true } : Trig).above = true := by decide

theorem witness_RisingEdgeFiresExactlyOnce :
    (armedTrig.edge = .rising ∧ armedTrig.armed = true ∧ armedTrig.above = false ∧
      (∀ x ∈ ([0xF830#16, 0x0666#16] : List Word), sint16 x ≤ hiThreshold 1638 armedTrig.level) ∧
      hiThreshold 1638 armedTrig.level < sint16 0x0667#16) ∧
    (∀ x ∈ ([0xF99A#16, 0x0666#16] : List Word),
      loThreshold 1638 armedTrig.level ≤ sint16 x ∧ sint16 x ≤ hiThreshold 1638 armedTrig.level) := by
  simp only [List.forall_mem_cons, List.not_mem_nil, false_implies, implies_true, and_true]
  decide

theorem witness_FallingEdgeNeedsTheUpperCrossingFirst :
    ((∀ x ∈ ([0xF99A#16, 0x7FFF#16] : List Word), loThreshold 1638 armedTrig.level ≤ sint16 x) ∧
      sint16 0xF999#16 < loThreshold 1638 armedTrig.level) ∧
    ((∀ x ∈ ([0x8000#16, 0x0666#16] : List Word), sint16 x ≤ hiThreshold 1638 armedTrig.level) ∧
      hiThreshold 1638 armedTrig.level < sint16 0x0667#16) ∧
    ({ armedTrig with edge := .falling } : Trig).edge = .falling := by
  simp only [List.forall_mem_cons, List.not_mem_nil, false_implies, implies_true, and_true]
  decide

theorem witness_NoRefireUntilRearmedAndCrossedAgain :
    evalFires 1638 armedTrig 0x199A#16 = true ∧
    evalFires 1638 { armedTrig with edge := .falling, above := true } 0xE666#16 = true ∧
    (∀ x ∈ ([0xF99A#16, 0x7FFF#16] : List Word), loThreshold 1638 armedTrig.level ≤ sint16 x) ∧
    (∀ x ∈ ([0x8000#16, 0x0666#16] : List Word), sint16 x ≤ hiThreshold 1638 armedTrig.level) ∧
    ∃ t, step lastDrainState = .next t ∧ lastDrainState.trig.armed = false ∧ t.trig.armed = true := by
  refine ⟨by decide, by decide, ?_, ?_, _, rfl, rfl, rfl⟩ <;>
    simp only [List.forall_mem_cons, List.not_mem_nil, false_implies, implies_true, and_true] <;> decide

theorem witness_PushStoresOrCountsTheDrop :
    firingState.count = firingState.cfg.cap ∧
    ((firedState .smp).count ≠ (firedState .smp).cfg.cap ∧ (firedState .smp).head < (firedState .smp).cfg.cap) := by
  decide

theorem witness_PopReturnsTheOldestEntry :
    0 < (firedState .drain).count ∧ (firedState .drain).tail < (firedState .drain).cfg.cap := by decide

/-- A history that wraps, drops and pops. -/
theorem witness_RingBufferIsFifo :
    Inv (firedState .smp) ∧ ∃ t stored popped,
      bufRun [.push (smp 5#16), .push (smp 6#16), .pop, .push (smp 7#16)] (firedState .smp) =
        .next (t, stored, popped) ∧ stored = [smp 5#16, smp 7#16] ∧ popped = [smp 1#16] :=
  ⟨firedState_inv _, _, _, _, rfl, by decide, by decide⟩

theorem witness_PushesKeepTheFirstEntries :
    Inv { firingState with phase := .cmd, count := 0 } ∧ ({ firingState with count := 0 } : State).count = 0 :=
  ⟨inv_of_data (by decide), rfl⟩

/-- An enabled channel evaluated, one not watched, one disabled, and no room. -/
theorem witness_SampleStepDoesEvalPushEmit :
    (Inv firingState ∧ firingState.phase = .smp ∧ maskBit firingState.mask firingState.sidx = true ∧
      firingState.trig.enabled = true ∧ firingState.sidx = firingState.trig.channel ∧
      rspRoom firingState 6 = true) ∧
    (Inv (firedState .smp) ∧ (firedState .smp).sidx ≠ (firedState .smp).trig.channel) ∧
    (Inv (stuckState .smp) ∧ rspRoom (stuckState .smp) 5 = false) ∧
    maskBit firingState.mask 1#2 = false :=
  ⟨⟨firingState_inv, by decide⟩, ⟨firedState_inv _, by decide⟩, ⟨stuckState_inv _, by decide⟩, by decide⟩

theorem witness_LiveTransmissionIsUnconditional :
    Inv (firedState .smp) ∧ (firedState .smp).phase = .smp ∧
    maskBit (firedState .smp).mask (firedState .smp).sidx = true ∧ rspRoom (firedState .smp) 6 = true :=
  ⟨firedState_inv _, by decide⟩

theorem witness_WordsOfDisabledChannelsLeaveNoTrace :
    firingState.phase = .smp ∧ (⟨0x199A#16, 7#16, 8#16, 9#16⟩ : Group) ≠ firingState.grp ∧
    ∀ c, maskBit firingState.mask c = true → groupWord ⟨0x199A#16, 7#16, 8#16, 9#16⟩ c = groupWord firingState.grp c := by
  decide

/-- A full buffer and a fire (of the first two clauses), and an empty one at DRAIN_CHECK. -/
theorem witness_FiresMarkTheLiveFrameAndLeaveEntries :
    (Inv firingState ∧ Evaluates firingState ∧ firingState.count = firingState.cfg.cap ∧
      evalFires firingState.cfg.hystCode firingState.trig (groupWord firingState.grp firingState.sidx) = true ∧
      ∃ t, blockStep firingState = .next t) ∧
    ({ State.reset with phase := .drainCheck } : State).count = 0 :=
  ⟨⟨firingState_inv, ⟨.inl rfl, rfl, rfl, rfl, rfl, rfl⟩, rfl, by decide, _, rfl⟩, rfl⟩

theorem witness_WaitSmpDrainCheckAndDelaySteps :
    (firedState .waitSmp).phase = .waitSmp ∧
    ({ firedState .waitSmp with smpIn := [firingState.grp] } : State).smpIn = firingState.grp :: [] ∧
    ((firedState .drainCheck).trig.triggered = true ∧ 0 < (firedState .drainCheck).count) ∧
    firingState.trig.triggered = false ∧ State.reset.count = 0 ∧ (firedState .delay).phase = .delay := by decide

/-- Two entries left, one entry left, and no room. -/
theorem witness_DrainStepEmitsTheOldestEntry :
    ((firedState .drain).phase = .drain ∧ 1 < (firedState .drain).count ∧
      (firedState .drain).tail < (firedState .drain).cfg.cap ∧
      rspRoom (firedState .drain) (frameLen (readSlot (firedState .drain) (firedState .drain).tail).mark) = true) ∧
    (lastDrainState.phase = .drain ∧ lastDrainState.count = 1 ∧ lastDrainState.tail < lastDrainState.cfg.cap) ∧
    rspRoom (stuckState .drain) (frameLen (readSlot (stuckState .drain) (stuckState .drain).tail).mark) = false := by
  decide

theorem witness_DrainRunsToCompletion :
    Inv (firedState .drain) ∧ (firedState .drain).phase = .drain ∧ (firedState .drain).cfg.rspDepth = none ∧
    ¬ RstTurn (firedState .drain) ∧ ∃ t, step (firedState .drain) = .next t :=
  ⟨firedState_inv _, rfl, rfl, not_rst_turn rfl, _, rfl⟩

theorem witness_OneCycleEmitsLiveThenDrainedFrames :
    Inv firingState ∧ firingState.phase = .smp ∧ firingState.sidx = 0#2 ∧ firingState.cfg.rspDepth = none :=
  ⟨firingState_inv, rfl, rfl, rfl⟩

theorem witness_HostStarvationKeepsTheBlockInCmd :
    Inv starvedState ∧ starvedState.phase = .cmd ∧ starvedState.sched = [] ∧
    starvedState.schedAgain = List.replicate (1 + 1) .hostSend ++ [.block] ∧ starvedState.hostAgain ≠ [] :=
  ⟨inv_of_data (by decide), by decide⟩

end Sys2Proof.Tests
end

/-! ## Sound reset states (00_scope.md R7–R9, 70_reset_and_hazards.md R155)

A state at its reset values with nothing stored is sound, whatever the parameters are: this is said of every such
state (`AtReset`), so it serves both `State.resetOf` and an `rst` turn in the middle of a run. -/

namespace Sys2Proof.Machine

/-- Without unread entries no entry is marked. -/
theorem liveMarks_of_count_eq_zero {s : State} (h : s.count = 0) : liveMarks s = 0 := by
  simp [liveMarks, liveEntries, h]

/-- Every clause of the marker invariant speaks of a marked unread entry. -/
theorem markInv_of_count_eq_zero {s : State} (h : s.count = 0) : MarkInv s := by
  have hm : liveMarks s = 0 := liveMarks_of_count_eq_zero h
  constructor <;> omega

/-- An empty queue is within any depth. -/
theorem room_empty (depth : Option Nat) : room depth 0 0 = true := by
  cases depth with
  | none => rfl
  | some d => exact (room_some d 0 0).2 d.zero_le

/-- R155 under legal parameters: R9 bounds the reset mask, and R7 makes index 0 exist. -/
theorem AtReset.inv {s : State} (h : AtReset s) (hp : ParamsOk s.cfg) (hbuf : s.buf = []) : Inv s where
  params := hp
  mask_le := h.mask ▸ hp.maskReset_le
  armed_enabled := by simp [h.armed]
  mem_wf := by rw [hbuf]; rfl
  mem_range := by simp [hbuf]
  head_lt := h.head ▸ hp.cap_pos
  tail_lt := h.tail ▸ hp.cap_pos
  count_le := h.count ▸ Nat.zero_le _
  head_eq := by simp [h.head, h.tail, h.count]
  live_written := by simp [h.count]
  drain_count := by simp [h.phase]
  drain_triggered := by simp [h.phase]
  cmd_fits := by rw [cmdRoom, h.cmdIn]; exact room_empty _
  rsp_fits := by rw [rspRoom, h.rspOut]; exact room_empty _

theorem AtReset.markInv {s : State} (h : AtReset s) : MarkInv s := markInv_of_count_eq_zero h.count

theorem resetOf_atReset (p : Config.Params) : AtReset (State.resetOf p) := by
  constructor <;> rfl

theorem resetOf_inv {p : Config.Params} (hp : ParamsOk p) : Inv (State.resetOf p) :=
  (resetOf_atReset p).inv hp rfl

theorem resetOf_markInv (p : Config.Params) : MarkInv (State.resetOf p) := (resetOf_atReset p).markInv

/-- The spec's defaults meet the constraints of R7 and R9; both queues are unbounded. -/
theorem paramsOk_default : ParamsOk Config.Params.default where
  cap_pos := by decide
  maskReset_le := by decide
  cmdDepth_ge := nofun
  rspDepth_ge := nofun

/-- Settles O2: the defaults are read off `State.reset`, and the state after reset is at its reset values with an
empty storage, so it is sound under any legal parameters, the defaults among them. -/
theorem resetStatesAreSound : Obligations.ResetStatesAreSound :=
  ⟨rfl, rfl, rfl, rfl, rfl,
    fun p hp => ⟨resetOf_inv hp, resetOf_markInv p⟩,
    resetOf_inv paramsOk_default, resetOf_markInv _⟩

end Sys2Proof.Machine

/-! ## Every step keeps the invariants (10_state.md R21–R41)

One lemma per operation of the model: an operation that writes a few fields needs an argument only for the clauses of
`Inv` that speak of them, and takes the others over. -/

namespace Sys2Proof.Machine

section OperationsKeepInv

variable {s t : State}

theorem Inv.setSched (h : Inv s) (rest : List Agent) : Inv { s with sched := rest } := { h with }

/-- The trigger fields stand in two clauses: R32, and R133 during a drain. -/
theorem Inv.setTrig (h : Inv s) {u : Trig} (ha : u.armed = true → u.enabled = true)
    (hd : s.phase = .drain → u.triggered = true) : Inv { s with trig := u } :=
  { h with armed_enabled := ha, drain_triggered := hd }

theorem Inv.setPhase (h : Inv s) {p : Phase} (hp : p ≠ .drain) : Inv { s with phase := p } :=
  { h with drain_count := fun hd => absurd hd hp, drain_triggered := fun hd => absurd hd hp }

theorem Inv.enterDrain (h : Inv s) (hc : 0 < s.count) (ht : s.trig.triggered = true) :
    Inv { s with phase := .drain } :=
  { h with drain_count := fun _ => hc, drain_triggered := fun _ => ht }

/-! ### The queues (10_state.md R41) -/

/-- The block takes the oldest command byte, whatever the decoder makes of it. -/
theorem Inv.takeCmdByte (h : Inv s) {b : Byte} {rest : List Byte} (hc : s.cmdIn = b :: rest) (d : DState)
    (cmd : Byte) : Inv { s with cmdIn := rest, dstate := d, dcmd := cmd } :=
  { h with cmd_fits := room_mono (by simp [hc]) h.cmd_fits }

/-- EMIT does not look at the phase. -/
theorem emit_setPhase (e : Sample) (s : State) (p : Phase) :
    { emit e s with phase := p } = emit e { s with phase := p } := by
  cases hr : rspRoom s (frameLen e.mark) with
  | false => rw [emit_hold hr, emit_hold (s := { s with phase := p }) hr]
  | true => rw [emit_room hr, emit_room (s := { s with phase := p }) hr]

theorem Inv.emit (h : Inv s) (e : Sample) : Inv (emit e s) := by
  cases hr : rspRoom s (frameLen e.mark) with
  | false => rwa [emit_hold hr]
  | true =>
    rw [emit_room hr]
    refine { h with rsp_fits := ?_ }
    rw [rspRoom, List.length_append, encodeFrame_length]
    exact room_after hr

theorem Inv.hostSend (h : Inv s) : Inv (hostSend s) := by
  unfold Machine.hostSend
  split
  · exact h
  · split
    · rename_i hr
      refine { h with cmd_fits := ?_ }
      rw [cmdRoom, List.length_append]
      exact room_after hr
    · exact h

theorem Inv.hostTake (h : Inv s) : Inv (hostTake s) := by
  unfold Machine.hostTake
  split
  · exact h
  · rename_i hq
    exact { h with rsp_fits := room_mono (by simp [hq]) h.rsp_fits }

theorem Inv.converterOffer (h : Inv s) : Inv (converterOffer s) := by
  unfold Machine.converterOffer
  split
  · exact h
  · exact { h with }

/-! ### The ring buffer (43_ring_buffer.md) -/

theorem lookup_write_isSome (m : Memory) (k : Nat) (e : Sample) {j : Nat}
    (h : (Memory.lookup m j).isSome = true) : (Memory.lookup (Memory.write m k e) j).isSome = true := by
  by_cases hj : j = k
  · subst hj
    simp [lookup_write_same]
  · rwa [lookup_write_other m e hj]

/-- PUSH writes the slot at `head`, which is the live slot of number `count` (10_state.md R37). -/
theorem Inv.push (h : Inv s) {e : Sample} (hp : push e s = .next t) : Inv t := by
  obtain ⟨_, rfl⟩ | ⟨hfull, hhead, rfl⟩ := push_cases hp
  · exact { h with }
  · have hcount := h.count_le
    exact { h with
      mem_wf := write_wf _ _ _ h.mem_wf
      mem_range := fun p hm => by
        obtain rfl | hm := mem_write hm
        · exact hhead
        · exact h.mem_range p hm
      head_lt := Nat.mod_lt _ h.params.cap_pos
      count_le := by show s.count + 1 ≤ s.cfg.cap; omega
      head_eq := by
        show (s.head + 1) % s.cfg.cap = (s.tail + (s.count + 1)) % s.cfg.cap
        rw [h.head_eq, Nat.mod_add_mod, Nat.add_assoc]
      live_written := fun k hk => by
        show (Memory.lookup (Memory.write s.buf s.head e) (liveIndex s k)).isSome = true
        obtain hk | rfl := Nat.lt_succ_iff_lt_or_eq.1 hk
        · exact lookup_write_isSome _ _ _ (h.live_written k hk)
        · rw [liveIndex, ← h.head_eq, lookup_write_same]
          rfl
      drain_count := fun _ => Nat.succ_pos _ }

theorem Inv.pushIfEnabled (h : Inv s) {e : Sample} (hp : pushIfEnabled e s = .next t) : Inv t := by
  unfold Machine.pushIfEnabled at hp
  split at hp
  · exact h.push hp
  · cases hp
    exact h

/-- POP renumbers the live slots: the k-th after it is the (k+1)-th before it. In DRAIN the clause of R133 needs an
entry that stays. -/
theorem Inv.popped (h : Inv s) (hc : 0 < s.count) (hd : s.phase = .drain → 1 < s.count) :
    Inv { s with tail := (s.tail + 1) % s.cfg.cap, count := s.count - 1 } := by
  have hcount := h.count_le
  have shift (k : Nat) : ((s.tail + 1) % s.cfg.cap + k) % s.cfg.cap = (s.tail + (k + 1)) % s.cfg.cap := by
    rw [Nat.mod_add_mod, Nat.add_assoc, Nat.add_comm 1 k]
  exact { h with
    tail_lt := Nat.mod_lt _ h.params.cap_pos
    count_le := by show s.count - 1 ≤ s.cfg.cap; omega
    head_eq := by
      show s.head = ((s.tail + 1) % s.cfg.cap + (s.count - 1)) % s.cfg.cap
      rw [shift, Nat.sub_add_cancel hc, h.head_eq]
    live_written := fun k hk => by
      show (Memory.lookup s.buf (((s.tail + 1) % s.cfg.cap + k) % s.cfg.cap)).isSome = true
      rw [shift]
      exact h.live_written (k + 1) (Nat.add_lt_of_lt_sub hk)
    drain_count := fun hp => Nat.sub_pos_of_lt (hd hp) }

/-! ### The trigger and the sequencer -/

@[simp] theorem sampleTrig_enabled (hyst : Nat) (u : Trig) (c : Chan) (w : Word) :
    (sampleTrig hyst u c w).enabled = u.enabled := by
  unfold sampleTrig
  split <;> rfl

/-- A sample's evaluation can disarm, never arm (42_trigger_engine.md R111). -/
theorem armed_of_sampleTrig_armed {hyst : Nat} {u : Trig} {c : Chan} {w : Word}
    (ha : (sampleTrig hyst u c w).armed = true) : u.armed = true := by
  unfold sampleTrig at ha
  split at ha
  · exact Bool.and_elim_left ha
  · exact ha

theorem Inv.advanceSidx (h : Inv s) : Inv (advanceSidx s) := by
  unfold Machine.advanceSidx
  split
  · exact { h.setPhase (p := .drainCheck) nofun with }
  · exact { h with }

/-- The end of a DRAIN step either leaves DRAIN, or finds an entry left to drain (44_acquisition_cycle.md R134). It is
stated from the state as it would be outside DRAIN, since POP may have emptied the buffer. -/
theorem Inv.finishDrain (h : Inv { s with phase := .delay }) (ht : s.trig.triggered = true) :
    Inv (finishDrain s) := by
  unfold Machine.finishDrain
  split
  · exact h.setTrig (u := endOfDrain s.trig) id nofun
  · rename_i hc
    exact { h with drain_count := fun _ => Nat.pos_of_ne_zero hc, drain_triggered := fun _ => ht }

/-- The mask bound is R97's; only TRIGON arms, and it enables too; `triggered` is free outside DRAIN. -/
theorem Inv.execCommand (h : Inv s) {i : Instr} (hi : i.isCommand = true) (hp : s.phase ≠ .drain)
    (he : exec i s = .next t) : Inv t := by
  have hframe := exec_command_cases hi he
  have hmask : popcount t.mask ≤ 2 := by
    obtain ⟨c, -, hm, -⟩ | ⟨c, -, hm, -⟩ | ⟨hm, -⟩ := exec_command_effects hi he
    · exact hm ▸ popcount_chen_le _ _ h.mask_le
    · exact hm ▸ (popcount_maskClear_le _ _).trans h.mask_le
    · exact hm ▸ h.mask_le
  have harmed : t.trig.armed = true → t.trig.enabled = true := by
    obtain ⟨_, -, -, ht⟩ | ⟨_, -, -, ht⟩ | ⟨-, ⟨-, ht⟩ | ⟨-, ht⟩ | ⟨_, -, ht⟩ | ⟨_, -, ht⟩ | ⟨_, -, ht⟩ |
      ⟨_, -, ht⟩ | ⟨-, ht⟩ | ⟨-, ht⟩⟩ := exec_command_effects hi he <;> simp +contextual [ht, h.armed_enabled]
  rw [hframe]
  exact { h with
    mask_le := hmask
    armed_enabled := harmed
    drain_count := fun hd => absurd hd hp
    drain_triggered := fun hd => absurd hd hp }

theorem takeReset_atReset (s : State) : AtReset (takeReset s) := by
  constructor <;> rfl

theorem Inv.takeReset (h : Inv s) : Inv (takeReset s) :=
  (takeReset_atReset s).inv h.params rfl

/-! ### The steps -/

theorem Inv.cmdStep (h : Inv s) (hp : s.phase = .cmd) (hs : cmdStep s = .next t) : Inv t := by
  obtain ⟨-, rfl⟩ | ⟨b, rest, hc, ⟨-, -, rfl⟩ | ⟨-, -, rfl⟩ | ⟨-, rfl⟩ | ⟨-, he⟩⟩ := cmdStep_cases hs
  · exact h.setPhase nofun
  · exact h.takeCmdByte hc _ _
  · exact h.takeCmdByte hc _ _
  · exact h.takeCmdByte hc _ _
  · exact (h.takeCmdByte hc _ _).execCommand (decodeCommand_isCommand _ _) (by simp [hp]) he

theorem Inv.waitSmpStep (h : Inv s) (hs : waitSmpStep s = .next t) : Inv t := by
  obtain ⟨-, rfl⟩ | ⟨g, rest, -, rfl⟩ := waitSmpStep_cases hs
  · exact h
  · exact { h.setPhase (p := .smp) nofun with }

theorem Inv.smpStep (h : Inv s) (hp : s.phase = .smp) (hs : smpStep s = .next t) : Inv t := by
  obtain ⟨-, rfl⟩ | ⟨-, -, rfl⟩ | ⟨-, -, u, hu, rfl⟩ := smpStep_cases hs
  · exact h.advanceSidx
  · exact h
  · have heval := h.setTrig (u := sampleTrig s.cfg.hystCode s.trig s.sidx (groupWord s.grp s.sidx))
      (fun ha => by simpa using h.armed_enabled (armed_of_sampleTrig_armed ha)) (by simp [hp])
    exact ((heval.pushIfEnabled hu).emit _).advanceSidx

theorem Inv.drainCheckStep (h : Inv s) (hs : drainCheckStep s = .next t) : Inv t := by
  obtain ⟨ht, hc, rfl⟩ | ⟨-, rfl⟩ := drainCheckStep_cases hs
  · exact h.enterDrain hc ht
  · exact h.setPhase nofun

theorem Inv.drainStep (h : Inv s) (hp : s.phase = .drain) (hs : drainStep s = .next t) : Inv t := by
  obtain ⟨hc, -, ⟨-, rfl⟩ | ⟨hr, rfl⟩⟩ := drainStep_cases hs
  · exact h
  · have houtside := (h.setPhase (p := .delay) nofun).popped hc nofun
    refine Inv.finishDrain ?_ ?_
    · rw [emit_setPhase]
      exact houtside.emit _
    · simpa using h.drain_triggered hp

theorem Inv.blockStep (h : Inv s) (hs : blockStep s = .next t) : Inv t := by
  obtain ⟨hp, hs⟩ | ⟨-, hs⟩ | ⟨hp, hs⟩ | ⟨-, hs⟩ | ⟨hp, hs⟩ | ⟨-, rfl⟩ := blockStep_cases hs
  · exact h.cmdStep hp hs
  · exact h.waitSmpStep hs
  · exact h.smpStep hp hs
  · exact h.drainCheckStep hs
  · exact h.drainStep hp hs
  · exact h.setPhase nofun

theorem Inv.step (h : Inv s) (hs : step s = .next t) : Inv t := by
  obtain ⟨-, rest, hb⟩ | ⟨rest, -, rfl⟩ | ⟨rest, -, rfl⟩ | ⟨rest, -, rfl⟩ | ⟨rest, -, rfl⟩ := step_cases hs
  · exact (h.setSched rest).blockStep hb
  · exact (h.setSched rest).hostSend
  · exact (h.setSched rest).hostTake
  · exact (h.setSched rest).converterOffer
  · exact (h.setSched rest).takeReset

end OperationsKeepInv

/-- Settles O3: each turn is one of the operations above, on the state with that turn taken off the schedule. -/
theorem everyStepKeepsInvariant : Obligations.EveryStepKeepsInvariant :=
  fun _ _ h hs => h.step hs

end Sys2Proof.Machine

/-! ## Who writes what (10_state.md R21–R41)

What a step other than a reset can do to the command bytes, to the mask and the trigger fields, and to `drop_count`:
said first of the block's step, then of the machine's, where the other agents write none of them but the command
bytes. -/

namespace Sys2Proof.Machine

section Writers

variable {s t : State}

/-- `step_cases` for a step that is no reset. -/
theorem step_cases_of_not_rst (h : step s = .next t) (hr : ¬ RstTurn s) :
    (BlockTurn s ∧ ∃ rest, blockStep { s with sched := rest } = .next t) ∨
    (∃ rest, t = hostSend { s with sched := rest }) ∨
    (∃ rest, t = hostTake { s with sched := rest }) ∨
    (∃ rest, t = converterOffer { s with sched := rest }) := by
  obtain hb | ⟨rest, -, ht⟩ | ⟨rest, -, ht⟩ | ⟨rest, -, ht⟩ | ⟨rest, hs, -⟩ := step_cases h
  · exact .inl hb
  · exact .inr (.inl ⟨rest, ht⟩)
  · exact .inr (.inr (.inl ⟨rest, ht⟩))
  · exact .inr (.inr (.inr ⟨rest, ht⟩))
  · exact absurd (by simp [RstTurn, hs]) hr

/-- The fields a CMD step can write, whatever command it runs. -/
theorem cmdStep_frame (h : cmdStep s = .next t) :
    t = { s with
      phase := t.phase, mask := t.mask, trig := t.trig, dstate := t.dstate, dcmd := t.dcmd, cmdIn := t.cmdIn } := by
  obtain ⟨-, rfl⟩ | ⟨v, rest, -, ⟨-, -, rfl⟩ | ⟨-, -, rfl⟩ | ⟨-, rfl⟩ | ⟨-, he⟩⟩ := cmdStep_cases h
  · rfl
  · rfl
  · rfl
  · rfl
  · rw [exec_command_cases (decodeCommand_isCommand _ _) he]

theorem pushIfEnabled_cmdIn {e : Sample} (h : pushIfEnabled e s = .next t) : t.cmdIn = s.cmdIn := by
  rw [pushIfEnabled_frame h]

theorem pushIfEnabled_mask {e : Sample} (h : pushIfEnabled e s = .next t) : t.mask = s.mask := by
  rw [pushIfEnabled_frame h]

theorem pushIfEnabled_trig {e : Sample} (h : pushIfEnabled e s = .next t) : t.trig = s.trig := by
  rw [pushIfEnabled_frame h]

/-! ### The command bytes (R41) -/

/-- Only the CMD step takes a command byte, and it takes the oldest. -/
theorem blockStep_cmdIn (h : blockStep s = .next t) :
    t.cmdIn = s.cmdIn ∨ (s.phase = .cmd ∧ ∃ b, s.cmdIn = b :: t.cmdIn) := by
  obtain ⟨hp, h⟩ | ⟨-, h⟩ | ⟨-, h⟩ | ⟨-, h⟩ | ⟨-, h⟩ | ⟨-, rfl⟩ := blockStep_cases h
  · obtain ⟨-, rfl⟩ | ⟨b, rest, hc, hd⟩ := cmdStep_cases h
    · exact .inl rfl
    · refine .inr ⟨hp, b, ?_⟩
      obtain ⟨-, -, rfl⟩ | ⟨-, -, rfl⟩ | ⟨-, rfl⟩ | ⟨-, he⟩ := hd
      · exact hc
      · exact hc
      · exact hc
      · rw [hc, exec_command_cases (decodeCommand_isCommand _ _) he]
  · obtain ⟨-, rfl⟩ | ⟨g, rest, -, rfl⟩ := waitSmpStep_cases h <;> exact .inl rfl
  · obtain ⟨-, rfl⟩ | ⟨-, -, rfl⟩ | ⟨-, -, u, hu, rfl⟩ := smpStep_cases h
    · simp
    · simp
    · have hcmd := pushIfEnabled_cmdIn hu
      simp [hcmd]
  · obtain ⟨-, -, rfl⟩ | ⟨-, rfl⟩ := drainCheckStep_cases h <;> exact .inl rfl
  · obtain ⟨-, -, ⟨-, rfl⟩ | ⟨-, rfl⟩⟩ := drainStep_cases h <;> simp
  · exact .inl rfl

/-- The host holds, or moves the next of its bytes, pending or repeated, to the end of `cmd_in` (logs 2, 4). -/
theorem hostSend_stream (s : State) :
    (hostSend s).cmdIn ++ (hostSend s).hostPending = s.cmdIn ++ s.hostPending ∨
    (s.hostPending = [] ∧ (hostSend s).cmdIn ++ (hostSend s).hostPending = s.cmdIn ++ s.hostAgain) := by
  unfold hostSend
  split
  · exact .inl rfl
  · rename_i b rest hb
    split
    · obtain ⟨-, hr⟩ | ⟨hp, hr⟩ := refill_cases s.hostPending s.hostAgain <;> rw [hr] at hb
      · exact .inl (by simp [hb])
      · exact .inr ⟨hp, by simp [hb]⟩
    · exact .inl rfl

/-! ### The mask and the trigger fields (R21–R30) -/

/-- The block writes the mask and the trigger fields in three places: the command of a value byte, the evaluation of
a sample and the end of a drain. -/
theorem blockStep_mask_trig (h : blockStep s = .next t) :
    (t.mask = s.mask ∧ t.trig = s.trig) ∨
    (s.phase = .cmd ∧ s.dstate = .gotCmd ∧ ∃ v rest, s.cmdIn = v :: rest ∧
      exec (decodeCommand s.dcmd v) { s with cmdIn := rest, dstate := .idle } = .next t) ∨
    (s.phase = .smp ∧ maskBit s.mask s.sidx = true ∧ evaluates s.trig s.sidx = true ∧
      rspRoom s (frameLen (sampleOf s s.sidx (groupWord s.grp s.sidx)).mark) = true ∧
      t.mask = s.mask ∧ t.trig = evalTrig s.cfg.hystCode s.trig (groupWord s.grp s.sidx)) ∨
    (s.phase = .drain ∧ s.count = 1 ∧ t.mask = s.mask ∧ t.trig = endOfDrain s.trig) := by
  obtain ⟨hp, h⟩ | ⟨-, h⟩ | ⟨hp, h⟩ | ⟨-, h⟩ | ⟨hp, h⟩ | ⟨-, rfl⟩ := blockStep_cases h
  · obtain ⟨-, rfl⟩ | ⟨v, rest, hc, ⟨-, -, rfl⟩ | ⟨-, -, rfl⟩ | ⟨-, rfl⟩ | ⟨hd, he⟩⟩ := cmdStep_cases h
    · exact .inl ⟨rfl, rfl⟩
    · exact .inl ⟨rfl, rfl⟩
    · exact .inl ⟨rfl, rfl⟩
    · exact .inl ⟨rfl, rfl⟩
    · exact .inr (.inl ⟨hp, hd, v, rest, hc, he⟩)
  · obtain ⟨-, rfl⟩ | ⟨g, rest, -, rfl⟩ := waitSmpStep_cases h <;> exact .inl ⟨rfl, rfl⟩
  · obtain ⟨-, rfl⟩ | ⟨-, -, rfl⟩ | ⟨hm, hroom, u, hu, rfl⟩ := smpStep_cases h
    · simp
    · simp
    · have hmask := pushIfEnabled_mask hu
      have htrig := pushIfEnabled_trig hu
      cases he : evaluates s.trig s.sidx with
      | false => exact .inl ⟨by simp [hmask], by simp [htrig, sampleTrig, he]⟩
      | true =>
        exact .inr (.inr (.inl ⟨hp, hm, rfl, hroom, by simp [hmask], by simp [htrig, sampleTrig, he]⟩))
  · obtain ⟨-, -, rfl⟩ | ⟨-, rfl⟩ := drainCheckStep_cases h <;> exact .inl ⟨rfl, rfl⟩
  · obtain ⟨hc, -, ⟨-, rfl⟩ | ⟨-, rfl⟩⟩ := drainStep_cases h
    · exact .inl ⟨rfl, rfl⟩
    · by_cases hlast : s.count = 1
      · exact .inr (.inr (.inr ⟨hp, hlast, by simp, by simp [finishDrain, hlast]⟩))
      · exact .inl ⟨by simp, by simp [finishDrain, show s.count - 1 ≠ 0 by omega]⟩
  · exact .inl ⟨rfl, rfl⟩

/-- The same of the machine's step, in the terms of Safety.lean. The command runs on a state that differs from s in
other fields only. -/
theorem step_mask_trig (h : step s = .next t) (hr : ¬ RstTurn s) :
    (t.mask = s.mask ∧ t.trig = s.trig) ∨
    (∃ i u, Executes s i ∧ i.isCommand = true ∧ u.mask = s.mask ∧ u.trig = s.trig ∧ exec i u = .next t) ∨
    (Evaluates s ∧ t.mask = s.mask ∧ t.trig = evalTrig s.cfg.hystCode s.trig (groupWord s.grp s.sidx)) ∨
    (EndsDrain s ∧ t.mask = s.mask ∧ t.trig = endOfDrain s.trig) := by
  obtain ⟨hturn, rest, hb⟩ | ⟨rest, rfl⟩ | ⟨rest, rfl⟩ | ⟨rest, rfl⟩ := step_cases_of_not_rst h hr
  · obtain hsame | ⟨hp, hd, v, bytes, hc, he⟩ | ⟨hp, hm, heval, hroom, hmask, htrig⟩ | ⟨hp, hc, hmask, htrig⟩ :=
      blockStep_mask_trig hb
    · exact .inl hsame
    · exact .inr (.inl ⟨_, { s with sched := rest, cmdIn := bytes, dstate := .idle },
        ⟨hturn, hp, hd, v, bytes, hc, rfl⟩, decodeCommand_isCommand _ _, rfl, rfl, he⟩)
    · have ⟨henabled, hchan⟩ : s.trig.enabled = true ∧ s.sidx = s.trig.channel := by
        simpa [evaluates] using heval
      exact .inr (.inr (.inl ⟨⟨hturn, hp, hm, henabled, hchan, hroom⟩, hmask, htrig⟩))
    · exact .inr (.inr (.inr ⟨⟨hturn, hp, hc⟩, hmask, htrig⟩))
  · exact .inl (by simp)
  · exact .inl (by simp)
  · exact .inl (by simp)

/-- Which command writes the mask and each configuration field (42_trigger_engine.md R104–R107, 41_channel_gate.md). -/
theorem exec_command_config {i : Instr} (hi : i.isCommand = true) (he : exec i s = .next t) :
    (t.mask ≠ s.mask → ∃ c, i = .chen c ∨ i = .chdis c) ∧
    (t.trig.edge ≠ s.trig.edge → ∃ r, i = .edge r) ∧
    (t.trig.channel ≠ s.trig.channel → ∃ c, i = .trigch c) ∧
    (t.trig.level ≠ s.trig.level → ∃ n, i = .lvllo n) ∧
    (t.trig.levelStage ≠ s.trig.levelStage → ∃ n, i = .lvlhi n) := by
  obtain ⟨c, rfl, hm, ht⟩ | ⟨c, rfl, hm, ht⟩ | ⟨hm, ⟨rfl, ht⟩ | ⟨rfl, ht⟩ | ⟨c, rfl, ht⟩ | ⟨n, rfl, ht⟩ |
    ⟨n, rfl, ht⟩ | ⟨r, rfl, ht⟩ | ⟨rfl, ht⟩ | ⟨-, ht⟩⟩ := exec_command_effects hi he <;> simp [hm, ht]

/-- Which command writes each trigger flag (42_trigger_engine.md R101, R102, R109). -/
theorem exec_command_flags {i : Instr} (hi : i.isCommand = true) (he : exec i s = .next t) :
    (t.trig.enabled ≠ s.trig.enabled → i = .trigon ∨ i = .trigoff) ∧
    (s.trig.armed = false → t.trig.armed = true → i = .trigon) ∧
    (s.trig.armed = true → t.trig.armed = false → i = .trigoff) ∧
    (s.trig.triggered = false → t.trig.triggered = true → i = .force) ∧
    (s.trig.triggered = true → t.trig.triggered = false → i = .trigon) ∧
    t.trig.above = s.trig.above := by
  obtain ⟨c, rfl, -, ht⟩ | ⟨c, rfl, -, ht⟩ | ⟨-, ⟨rfl, ht⟩ | ⟨rfl, ht⟩ | ⟨c, rfl, ht⟩ | ⟨n, rfl, ht⟩ |
    ⟨n, rfl, ht⟩ | ⟨r, rfl, ht⟩ | ⟨rfl, ht⟩ | ⟨-, ht⟩⟩ := exec_command_effects hi he <;> simp +contextual [ht]

/-- No step at all writes the parameters (00_scope.md R10). -/
theorem step_cfg (h : step s = .next t) : t.cfg = s.cfg := by
  obtain ⟨-, rest, hb⟩ | ⟨rest, -, rfl⟩ | ⟨rest, -, rfl⟩ | ⟨rest, -, rfl⟩ | ⟨rest, -, rfl⟩ := step_cases h
  · exact (blockStep_agents hb).1
  · simp
  · simp
  · simp
  · simp

/-! ### `drop_count` (R38) -/

theorem satSucc_toNat (d : BitVec 16) : (satSucc d).toNat = min 0xFFFF (d.toNat + 1) := by
  unfold satSucc
  split
  · rename_i h
    simp [h]
  · rename_i h
    have hne : d.toNat ≠ 0xFFFF := fun hd => h (BitVec.eq_of_toNat_eq hd)
    have hlt := d.isLt
    rw [BitVec.toNat_add]
    simp
    omega

/-- A PUSH drops, and counts it, exactly on a full buffer (43_ring_buffer.md R118). -/
theorem pushIfEnabled_dropCount {e : Sample} (h : pushIfEnabled e s = .next t) :
    t.dropCount = s.dropCount ∨
    (s.trig.enabled = true ∧ s.count = s.cfg.cap ∧ t.dropCount = satSucc s.dropCount) := by
  unfold pushIfEnabled at h
  split at h
  · rename_i henabled
    obtain ⟨hfull, rfl⟩ | ⟨-, -, rfl⟩ := push_cases h
    · exact .inr ⟨henabled, hfull, rfl⟩
    · exact .inl rfl
  · cases h
    exact .inl rfl

/-- Only the SMP step pushes, so only it counts a drop. -/
theorem blockStep_dropCount (h : blockStep s = .next t) :
    t.dropCount = s.dropCount ∨
    (s.phase = .smp ∧ s.trig.enabled = true ∧ s.count = s.cfg.cap ∧ t.dropCount = satSucc s.dropCount) := by
  obtain ⟨-, h⟩ | ⟨-, h⟩ | ⟨hp, h⟩ | ⟨-, h⟩ | ⟨-, h⟩ | ⟨-, rfl⟩ := blockStep_cases h
  · exact .inl (by rw [cmdStep_frame h])
  · obtain ⟨-, rfl⟩ | ⟨g, rest, -, rfl⟩ := waitSmpStep_cases h <;> exact .inl rfl
  · obtain ⟨-, rfl⟩ | ⟨-, -, rfl⟩ | ⟨-, -, u, hu, rfl⟩ := smpStep_cases h
    · simp
    · simp
    · obtain hd | ⟨henabled, hfull, hd⟩ := pushIfEnabled_dropCount hu
      · exact .inl (by simp [hd])
      · exact .inr ⟨hp, by simpa using henabled, hfull, by simp [hd]⟩
  · obtain ⟨-, -, rfl⟩ | ⟨-, rfl⟩ := drainCheckStep_cases h <;> exact .inl rfl
  · obtain ⟨-, -, ⟨-, rfl⟩ | ⟨-, rfl⟩⟩ := drainStep_cases h <;> simp
  · exact .inl rfl

end Writers

/-- Settles O11: the block takes the oldest byte in CMD or none; the host moves its next byte, pending or repeated. -/
theorem commandStreamKeepsItsBytes : Obligations.CommandStreamKeepsItsBytes := by
  intro s t h hr
  obtain ⟨hturn, rest, hb⟩ | ⟨rest, rfl⟩ | ⟨rest, rfl⟩ | ⟨rest, rfl⟩ := step_cases_of_not_rst h hr
  · obtain ⟨-, -, -, hpending, hagain, -⟩ := blockStep_agents hb
    refine ⟨hagain, ?_⟩
    rw [hpending]
    obtain hc | ⟨hp, b, hc⟩ := blockStep_cmdIn hb
    · exact .inl (by rw [hc])
    · exact .inr (.inl ⟨hturn, hp, b, congrArg (· ++ s.hostPending) hc⟩)
  · refine ⟨by simp, ?_⟩
    obtain hkeep | ⟨hp, hnext⟩ := hostSend_stream { s with sched := rest }
    · exact .inl hkeep.symm
    · exact .inr (.inr ⟨hp, hnext.symm⟩)
  · simp
  · simp

/-- Settles O13: of the three writers of the mask and the trigger fields, EVAL and the end of a drain write flags
only; the commands are taken one by one. -/
theorem configurationChangesOnlyByItsCommand : Obligations.ConfigurationChangesOnlyByItsCommand := by
  intro s t h
  refine ⟨step_cfg h, fun hr => ?_⟩
  obtain ⟨hm, ht⟩ | ⟨i, u, hex, hi, hm, ht, he⟩ | ⟨-, hm, ht⟩ | ⟨-, hm, ht⟩ := step_mask_trig h hr
  · simp [hm, ht]
  · obtain ⟨hmask, hedge, hchan, hlevel, hstage⟩ := exec_command_config hi he
    rw [ht] at hedge hchan hlevel hstage
    rw [hm] at hmask
    refine ⟨fun hne => ?_, fun hne => ?_, fun hne => ?_, fun hne => ?_, fun hne => ?_⟩
    · obtain ⟨c, rfl | rfl⟩ := hmask hne
      · exact ⟨c, .inl hex⟩
      · exact ⟨c, .inr hex⟩
    · obtain ⟨r, rfl⟩ := hedge hne
      exact ⟨r, hex⟩
    · obtain ⟨c, rfl⟩ := hchan hne
      exact ⟨c, hex⟩
    · obtain ⟨n, rfl⟩ := hlevel hne
      exact ⟨n, hex⟩
    · obtain ⟨n, rfl⟩ := hstage hne
      exact ⟨n, hex⟩
  · simp [hm, ht, evalTrig]
  · simp [hm, ht, endOfDrain]

/-- Settles O14: the same three writers, each with the flags it moves. -/
theorem flagsChangeOnlyByTheirWriters : Obligations.FlagsChangeOnlyByTheirWriters := by
  intro s t h hr
  obtain ⟨-, ht⟩ | ⟨i, u, hex, hi, -, ht, he⟩ | ⟨heval, -, ht⟩ | ⟨hend, -, ht⟩ := step_mask_trig h hr
  · simp +contextual [ht]
  · obtain ⟨henabled, hrise, hfall, hfire, hclear, habove⟩ := exec_command_flags hi he
    rw [ht] at henabled hrise hfall hfire hclear habove
    refine ⟨fun hne => ?_, fun h0 h1 => .inl (hrise h0 h1 ▸ hex), fun h1 h0 => .inl (hfall h1 h0 ▸ hex),
      fun h0 h1 => .inl (hfire h0 h1 ▸ hex), fun h1 h0 => .inl (hclear h1 h0 ▸ hex), fun hne => absurd habove hne⟩
    obtain rfl | rfl := henabled hne
    · exact .inl hex
    · exact .inr hex
  · simp +contextual [ht, evalTrig, heval]
  · simp +contextual [ht, endOfDrain, hend]

/-- Settles O16: only the block's SMP step pushes, and a PUSH onto a full buffer counts one drop, saturating. -/
theorem dropCountOnlyCountsDrops : Obligations.DropCountOnlyCountsDrops := by
  intro s t h hr
  obtain ⟨hturn, rest, hb⟩ | ⟨rest, rfl⟩ | ⟨rest, rfl⟩ | ⟨rest, rfl⟩ := step_cases_of_not_rst h hr
  · obtain hd | ⟨hp, henabled, hfull, hd⟩ := blockStep_dropCount hb
    · exact .inl hd
    · exact .inr ⟨hturn, hp, henabled, hfull, by rw [hd, satSucc_toNat]⟩
  · simp
  · simp
  · simp

/-! ## The entry layout (R33) and the engine state (R31) -/

/-- The bits of an entry, field by field (R33). -/
theorem sampleBits_getLsbD (e : Sample) (i : Nat) :
    (sampleBits e).getLsbD i =
      if i < 16 then e.raw.getLsbD i
      else if i - 16 < 2 then e.ch.getLsbD (i - 16)
      else (BitVec.ofBool e.mark).getLsbD (i - 16 - 2) := by
  show (BitVec.ofBool e.mark ++ e.ch ++ e.raw : BitVec (1 + 2 + 16)).getLsbD i = _
  rw [BitVec.getLsbD_append, BitVec.getLsbD_append]

theorem sampleBits_mark (e : Sample) : (sampleBits e).getLsbD 18 = e.mark := by
  simp [sampleBits_getLsbD, -BitVec.getLsbD_eq_getElem]

theorem sampleBits_ch (e : Sample) : (sampleBits e).extractLsb' 16 2 = e.ch := by
  apply BitVec.eq_of_getLsbD_eq
  intro i hi
  simp [sampleBits_getLsbD, hi]

theorem sampleBits_raw (e : Sample) : (sampleBits e).extractLsb' 0 16 = e.raw := by
  apply BitVec.eq_of_getLsbD_eq
  intro i hi
  simp [sampleBits_getLsbD, hi]

theorem sampleOfBits_sampleBits (e : Sample) : sampleOfBits (sampleBits e) = e := by
  rw [sampleOfBits, sampleBits_mark, sampleBits_ch, sampleBits_raw]

theorem sampleBits_sampleOfBits (b : BitVec 19) : sampleBits (sampleOfBits b) = b := by
  apply BitVec.eq_of_getLsbD_eq
  intro i hi
  rw [sampleBits_getLsbD]
  split
  · rename_i hraw
    simp [sampleOfBits, hraw]
  · split
    · rename_i hlow hch
      simp [sampleOfBits, hch, show 16 + (i - 16) = i by omega]
    · obtain rfl : i = 18 := by omega
      simp [sampleOfBits]

/-- Settles O22: the three fields are read back bit by bit, and every bit of an entry is in one of them. -/
theorem entryLayoutIsLossless : Obligations.EntryLayoutIsLossless :=
  ⟨fun e => ⟨sampleBits_mark e, sampleBits_ch e, sampleBits_raw e, sampleOfBits_sampleBits e⟩,
    sampleBits_sampleOfBits⟩

/-- Settles O40: by the definition of the engine state, on the flags that reset, FORCE, TRIGON and TRIGOFF leave. -/
theorem engineStatesFollowTheFlags : Obligations.EngineStatesFollowTheFlags := by
  refine ⟨fun t => ?_, fun s hreset => ?_, fun s t h => ?_, fun s t h => ?_, fun s t h hpending => ?_⟩
  · simp +contextual [engineState]
  · simp [engineState, hreset.triggered, hreset.armed]
  · cases h
    rfl
  · cases h
    rfl
  · cases h
    simp [engineState, hpending]

end Sys2Proof.Machine

/-! ## The output stream (20_memory.md R52) and the other agents' turns (20_memory.md R55) -/

namespace Sys2Proof.Machine

section OutputStream

variable {s t : State}

theorem pushIfEnabled_rspOut {e : Sample} (h : pushIfEnabled e s = .next t) : t.rspOut = s.rspOut := by
  rw [pushIfEnabled_frame h]

/-- EMIT appends the whole frame or nothing of it (40_protocol_codec.md R91). -/
theorem emit_rspOut_cases (e : Sample) (s : State) :
    (emit e s).rspOut = s.rspOut ∨ (emit e s).rspOut = s.rspOut ++ encodeFrame e := by
  cases hr : rspRoom s (frameLen e.mark) with
  | false => exact .inl (by rw [emit_hold hr])
  | true => exact .inr (by rw [emit_room hr])

/-- The block writes `rsp_out` only by EMIT, at most once in a step. -/
theorem blockStep_rspOut (h : blockStep s = .next t) :
    t.rspOut = s.rspOut ∨ ∃ e, t.rspOut = s.rspOut ++ encodeFrame e := by
  obtain ⟨-, h⟩ | ⟨-, h⟩ | ⟨-, h⟩ | ⟨-, h⟩ | ⟨-, h⟩ | ⟨-, rfl⟩ := blockStep_cases h
  · exact .inl (by rw [cmdStep_frame h])
  · obtain ⟨-, rfl⟩ | ⟨g, rest, -, rfl⟩ := waitSmpStep_cases h <;> exact .inl rfl
  · obtain ⟨-, rfl⟩ | ⟨-, -, rfl⟩ | ⟨-, -, u, hu, rfl⟩ := smpStep_cases h
    · exact .inl (by simp)
    · exact .inl rfl
    · have hemit := emit_rspOut_cases (sampleOf s s.sidx (groupWord s.grp s.sidx)) u
      rw [pushIfEnabled_rspOut hu] at hemit
      rw [advanceSidx_rspOut]
      exact hemit.imp_right fun hframe => ⟨_, hframe⟩
  · obtain ⟨-, -, rfl⟩ | ⟨-, rfl⟩ := drainCheckStep_cases h <;> exact .inl rfl
  · obtain ⟨-, -, ⟨-, rfl⟩ | ⟨-, rfl⟩⟩ := drainStep_cases h
    · exact .inl rfl
    · rw [finishDrain_rspOut]
      exact (emit_rspOut_cases _ _).imp_right fun hframe => ⟨_, hframe⟩
  · exact .inl rfl

/-- The host takes the byte at the front, so what it has received and what waits are the same bytes in a row. -/
theorem hostTake_stream (s : State) :
    (hostTake s).hostReceived ++ (hostTake s).rspOut = s.hostReceived ++ s.rspOut := by
  unfold hostTake
  split
  · rfl
  · rename_i hq
    simp [hq]

end OutputStream

/-- Settles O10: the block appends at most one frame behind what waits, and the host moves a byte from there to what
it has received. -/
theorem outputStreamGrowsByWholeFrames : Obligations.OutputStreamGrowsByWholeFrames := by
  intro s t h hr
  obtain ⟨-, rest, hb⟩ | ⟨rest, rfl⟩ | ⟨rest, rfl⟩ | ⟨rest, rfl⟩ := step_cases_of_not_rst h hr
  · obtain ⟨-, -, -, -, -, hreceived, -⟩ := blockStep_agents hb
    rw [hreceived]
    obtain hsame | ⟨e, hframe⟩ := blockStep_rspOut hb
    · exact .inl (by rw [hsame])
    · exact .inr ⟨e, by rw [hframe, List.append_assoc]⟩
  · exact .inl (by simp)
  · exact .inl (hostTake_stream { s with sched := rest })
  · exact .inl (by simp)

/-! ### What the turn of another agent writes -/

/-- The host sends into `cmd_in` alone, behind what waits there (10_state.md R41). -/
theorem hostSend_frame (s : State) :
    hostSend s = { s with cmdIn := (hostSend s).cmdIn, hostPending := (hostSend s).hostPending } ∧
    s.cmdIn <+: (hostSend s).cmdIn := by
  unfold hostSend
  split
  · exact ⟨rfl, List.prefix_rfl⟩
  · split
    · exact ⟨rfl, List.prefix_append _ _⟩
    · exact ⟨rfl, List.prefix_rfl⟩

/-- The host takes from the front of `rsp_out` alone (10_state.md R41). -/
theorem hostTake_frame (s : State) :
    hostTake s = { s with rspOut := (hostTake s).rspOut, hostReceived := (hostTake s).hostReceived } ∧
    (hostTake s).rspOut <:+ s.rspOut := by
  unfold hostTake
  split
  · exact ⟨rfl, List.suffix_rfl⟩
  · rename_i hq
    exact ⟨rfl, hq ▸ List.suffix_cons _ _⟩

/-- The converter interface offers on the sample port alone, behind what is offered there (10_state.md R43). -/
theorem converterOffer_frame (s : State) :
    converterOffer s =
      { s with smpIn := (converterOffer s).smpIn, convPending := (converterOffer s).convPending } ∧
    s.smpIn <+: (converterOffer s).smpIn := by
  unfold converterOffer
  split
  · exact ⟨rfl, List.prefix_rfl⟩
  · exact ⟨rfl, List.prefix_append _ _⟩

/-- Settles O9: each of the three agents writes one queue and what it holds itself, as its frame lemma says. -/
theorem otherAgentsChangeOnlyQueuesAndPort : Obligations.OtherAgentsChangeOnlyQueuesAndPort := by
  rintro a s (rfl | rfl | rfl)
  · obtain ⟨hframe, hcmd⟩ := hostSend_frame s
    exact ⟨_, rfl, by rw [hframe], hcmd, by simp, by simp⟩
  · obtain ⟨hframe, hrsp⟩ := hostTake_frame s
    exact ⟨_, rfl, by rw [hframe], by simp, by simp, hrsp⟩
  · obtain ⟨hframe, hsmp⟩ := converterOffer_frame s
    exact ⟨_, rfl, by rw [hframe], by simp, hsmp, by simp⟩

end Sys2Proof.Machine

/-! ## The decoder and the encoder (30_encoding.md)

What the decoder answers is said once (`decodeCommand_gate`, `decodeTrigger_cases`, `decodeCommand_other`), and so is
what a mask of R70 keeps of a value byte, in the fields the decoder reads (`and_0x04_eq_bit` and the lemmas after
it). The opcode map and the ignored bits follow from the two. -/

namespace Sys2Proof

/-! ### What the decoder answers -/

/-- The command byte is one of the two with a meaning or an unrecognised one (R62, R68). -/
theorem commandByte_cases (cmd : Byte) : cmd = cmdGate ∨ cmd = cmdTrigger ∨ cmd ≠ cmdGate ∧ cmd ≠ cmdTrigger := by
  tauto

theorem decodeCommand_gate (v : Byte) :
    decodeCommand cmdGate v = if gateEnableBit v then .chen (gateChan v) else .chdis (gateChan v) := rfl

theorem decodeCommand_trigger (v : Byte) : decodeCommand cmdTrigger v = decodeTrigger v := rfl

theorem decodeCommand_other {cmd : Byte} (hg : cmd ≠ cmdGate) (ht : cmd ≠ cmdTrigger) (v : Byte) :
    decodeCommand cmd v = .cmdnop cmd v := by
  rw [decodeCommand, if_neg hg, if_neg ht]

/-- Everything the decoder can answer for a trigger-configuration frame, by its sub-command (R65). -/
theorem decodeTrigger_cases (v : Byte) :
    ((subCommand v).toNat = 0 ∧ payloadBit v = true ∧ decodeTrigger v = .trigon) ∨
    ((subCommand v).toNat = 0 ∧ payloadBit v = false ∧ decodeTrigger v = .trigoff) ∨
    ((subCommand v).toNat = 1 ∧ decodeTrigger v = .trigch (trigChan v)) ∨
    ((subCommand v).toNat = 2 ∧ decodeTrigger v = .lvlhi (payload v)) ∨
    ((subCommand v).toNat = 3 ∧ decodeTrigger v = .lvllo (payload v)) ∨
    ((subCommand v).toNat = 4 ∧ decodeTrigger v = .edge (Edge.ofBit (payloadBit v))) ∨
    ((subCommand v).toNat = 5 ∧ decodeTrigger v = .force) ∨
    (6 ≤ (subCommand v).toNat ∧ (subCommand v).toNat ≤ 7 ∧ decodeTrigger v = .trigrsv6_7 (subCommand v)) ∨
    (8 ≤ (subCommand v).toNat ∧ decodeTrigger v = .trigrsv8_15 (subCommand v)) := by
  unfold decodeTrigger
  split <;> grind

theorem wellFormed_decodeCommand (cmd v : Byte) : (decodeCommand cmd v).wellFormed = true := by
  obtain rfl | rfl | ⟨hg, ht⟩ := commandByte_cases cmd
  · rw [decodeCommand_gate]
    split <;> rfl
  · rw [decodeCommand_trigger]
    obtain ⟨-, -, h⟩ | ⟨-, -, h⟩ | ⟨-, h⟩ | ⟨-, h⟩ | ⟨-, h⟩ | ⟨-, h⟩ | ⟨-, h⟩ | ⟨h6, h7, h⟩ | ⟨h8, h⟩ :=
      decodeTrigger_cases v <;> simp [Instr.wellFormed, *]
  · rw [decodeCommand_other hg ht]
    exact decide_eq_true ⟨ht, hg⟩

theorem commandByte_decodeCommand (cmd v : Byte) : (decodeCommand cmd v).commandByte = cmd := by
  obtain rfl | rfl | ⟨hg, ht⟩ := commandByte_cases cmd
  · rw [decodeCommand_gate]
    split <;> rfl
  · rw [decodeCommand_trigger]
    obtain ⟨-, -, h⟩ | ⟨-, -, h⟩ | ⟨-, h⟩ | ⟨-, h⟩ | ⟨-, h⟩ | ⟨-, h⟩ | ⟨-, h⟩ | ⟨-, -, h⟩ | ⟨-, h⟩ :=
      decodeTrigger_cases v <;> rw [h] <;> rfl
  · rw [decodeCommand_other hg ht]
    rfl

/-! ### Decoding an encoded instruction (R74, R77) -/

theorem encode_command {i : Instr} (hc : i.isCommand = true) : encode i = commandFrame i := by
  cases i with
  | data | datamk => cases hc
  | _ => rfl

theorem decode_commandFrame (i : Instr) (rest : List Byte) :
    decode (commandFrame i ++ rest) = .ok (decodeCommand i.commandByte i.valueByte, rest) := rfl

/-- The canonical command byte and value byte of R77 stand for their instruction. -/
theorem decodeCommand_canonical {i : Instr} (hc : i.isCommand = true) (hw : i.wellFormed = true) :
    decodeCommand i.commandByte i.valueByte = i := by
  cases i with
  | trigon | trigoff | force => rfl
  | edge r => cases r <;> rfl
  | chen c | chdis c | trigch c => revert c; decide
  | lvlhi n | lvllo n => revert n; decide
  | trigrsv6_7 s | trigrsv8_15 s => revert s; decide
  | cmdnop k v =>
    obtain ⟨ht, hg⟩ := of_decide_eq_true hw
    exact decodeCommand_other hg ht v
  | data | datamk => cases hc

theorem decode_encode {i : Instr} (hc : i.isCommand = true) (hw : i.wellFormed = true) (rest : List Byte) :
    decode (encode i ++ rest) = .ok (i, rest) := by
  rw [encode_command hc, decode_commandFrame, decodeCommand_canonical hc hw]

/-- The channel is read back from the channel byte (R72). -/
theorem channelByte_chan (c : Chan) : (c.setWidth 8).extractLsb' 0 2 = c := by
  revert c
  decide

/-- The host's reader recovers the sample of a frame (40_protocol_codec.md R94). -/
theorem decodeResponse_encodeFrame (e : Sample) (rest : List Byte) :
    decodeResponse (encodeFrame e ++ rest) = .ok (responseOf e, rest) := by
  obtain ⟨mk, c, raw⟩ := e
  have hc : c.toNat % 256 < 4 := (Nat.mod_le _ _).trans_lt c.isLt
  have hraw : raw.extractLsb' 8 8 ++ raw.extractLsb' 0 8 = raw := BitVec.extractLsb'_append_extractLsb'
  cases mk <;>
    simp [encodeFrame, decodeResponse, responseOf, hc, channelByte_chan, hraw, triggerMark, frameEnd]

/-- Settles O17: a command by its canonical frame, a response frame by the sample it carries. -/
theorem decodeOfEncodeIsTheInstruction : Obligations.DecodeOfEncodeIsTheInstruction := by
  refine fun i rest hw => ⟨fun hc => decode_encode hc hw rest, fun hr => ?_⟩
  cases i with
  | data c raw => exact decodeResponse_encodeFrame ⟨false, c, raw⟩ rest
  | datamk c raw => exact decodeResponse_encodeFrame ⟨true, c, raw⟩ rest
  | _ => cases hr

/-- Settles O20: the model decodes the ten written-out words. -/
theorem writtenOutWordsDecode : Obligations.WrittenOutWordsDecode := by
  unfold Obligations.WrittenOutWordsDecode
  decide

/-! ### What a mask keeps of a value byte -/

theorem subCommand_toNat (v : Byte) : (subCommand v).toNat = v.toNat % 16 := by
  simp [subCommand]

theorem and_0x04_eq_bit (v : Byte) : v &&& 0x04#8 = 0x04#8 ↔ gateEnableBit v = true := by
  revert v
  decide

theorem and_0x04_eq_zero (v : Byte) : v &&& 0x04#8 = 0x00#8 ↔ gateEnableBit v = false := by
  revert v
  decide

theorem and_0x0F_eq (v k : Byte) : v &&& 0x0F#8 = k ↔ (subCommand v).toNat = k.toNat := by
  rw [← BitVec.toNat_inj, subCommand_toNat, BitVec.toNat_and]
  exact iff_of_eq (congrArg (· = k.toNat) (Nat.and_two_pow_sub_one_eq_mod v.toNat 4))

theorem and_0x0F (v : Byte) : v &&& 0x0F#8 = (subCommand v).setWidth 8 := by
  rw [and_0x0F_eq, BitVec.toNat_setWidth_of_le (by decide)]

theorem and_0x1F_eq_bit (v : Byte) :
    v &&& 0x1F#8 = 0x10#8 ↔ (subCommand v).toNat = 0 ∧ payloadBit v = true := by
  revert v
  decide

theorem and_0x1F_eq_zero (v : Byte) :
    v &&& 0x1F#8 = 0x00#8 ↔ (subCommand v).toNat = 0 ∧ payloadBit v = false := by
  revert v
  decide

theorem and_0x0E_eq_6 (v : Byte) :
    v &&& 0x0E#8 = 0x06#8 ↔ 6 ≤ (subCommand v).toNat ∧ (subCommand v).toNat ≤ 7 := by
  revert v
  decide

theorem and_0x08_eq_8 (v : Byte) : v &&& 0x08#8 = 0x08#8 ↔ 8 ≤ (subCommand v).toNat := by
  revert v
  decide

/-! ### The opcode map (R70, R81) -/

theorem bitVec_append_inj {n m : Nat} {a a' : BitVec n} {b b' : BitVec m} :
    a ++ b = a' ++ b' ↔ a = a' ∧ b = b' := by
  refine ⟨fun h => ?_, fun ⟨ha, hb⟩ => ha ▸ hb ▸ rfl⟩
  have hb : b = b' := by
    rw [← BitVec.extractLsb'_append_eq_right (a := a) (b := b), h, BitVec.extractLsb'_append_eq_right]
  subst hb
  exact ⟨(BitVec.append_left_inj b).1 h, rfl⟩

theorem frameWord_inj {a b c a' b' c' : Byte} :
    frameWord a b c = frameWord a' b' c' ↔ a = a' ∧ b = b' ∧ c = c' :=
  bitVec_append_inj.trans (by rw [bitVec_append_inj, and_assoc])

theorem frameWord_and (a b c a' b' c' : Byte) :
    frameWord a b c &&& frameWord a' b' c' = frameWord (a &&& a') (b &&& b') (c &&& c') :=
  BitVec.and_append.trans (congrArg (· ++ (c &&& c')) BitVec.and_append)

/-- A row that fixes the first two bytes of its frames and, under a mask, the value byte. -/
def valueRow (mnemonic : String) (cmd bits mask : Byte) : OpRow :=
  ⟨mnemonic, frameWord frameStart cmd bits, frameWord 0xFF#8 0xFF#8 mask⟩

/-- Every row of R70 but CMDNOP is of this form. -/
theorem opRows_eq_valueRows : opRows =
    [valueRow "CHEN" cmdGate 0x04#8 0x04#8, valueRow "CHDIS" cmdGate 0x00#8 0x04#8,
     valueRow "TRIGON" cmdTrigger 0x10#8 0x1F#8, valueRow "TRIGOFF" cmdTrigger 0x00#8 0x1F#8,
     valueRow "TRIGCH" cmdTrigger 0x01#8 0x0F#8, valueRow "LVLHI" cmdTrigger 0x02#8 0x0F#8,
     valueRow "LVLLO" cmdTrigger 0x03#8 0x0F#8, valueRow "EDGE" cmdTrigger 0x04#8 0x0F#8,
     valueRow "FORCE" cmdTrigger 0x05#8 0x0F#8, valueRow "TRIGRSV6_7" cmdTrigger 0x06#8 0x0E#8,
     valueRow "TRIGRSV8_15" cmdTrigger 0x08#8 0x08#8] := rfl

@[simp] theorem valueRow_mnemonic (mnemonic : String) (cmd bits mask : Byte) :
    (valueRow mnemonic cmd bits mask).mnemonic = mnemonic := rfl

@[simp] theorem valueRow_selects (mnemonic : String) (cmd bits mask cmd' v : Byte) :
    (valueRow mnemonic cmd bits mask).selects (frameWord frameStart cmd' v) =
      decide (cmd' = cmd ∧ v &&& mask = bits) := by
  have hall (b : Byte) : b &&& 0xFF#8 = b := BitVec.and_allOnes
  rw [Bool.eq_iff_iff]
  simp [OpRow.selects, valueRow, frameWord_and, frameWord_inj, hall]

theorem opRowNop_selects (cmd v : Byte) : opRowNop.selects (frameWord frameStart cmd v) = true := by
  show (frameWord frameStart cmd v &&& frameWord 0xFF#8 0x00#8 0x00#8 ==
    frameWord frameStart 0x00#8 0x00#8) = true
  simp [frameWord_and, frameStart]

/-- A gate frame selects the row of the instruction it decodes to and no other of R70. -/
theorem gateRow_selects (v : Byte) : ∀ r ∈ opRows,
    r.selects (frameWord frameStart cmdGate v) = (r.mnemonic == (decodeCommand cmdGate v).mnemonic) := by
  have hne : cmdGate ≠ cmdTrigger := by decide
  rw [decodeCommand_gate]
  cases h : gateEnableBit v <;>
    simp [opRows_eq_valueRows, hne, and_0x04_eq_bit, and_0x04_eq_zero, h, Instr.mnemonic]

/-- A trigger-configuration frame selects the row of the instruction it decodes to and no other of R70. -/
theorem triggerRow_selects (v : Byte) : ∀ r ∈ opRows,
    r.selects (frameWord frameStart cmdTrigger v) = (r.mnemonic == (decodeTrigger v).mnemonic) := by
  have hne : cmdTrigger ≠ cmdGate := by decide
  simp only [opRows_eq_valueRows, List.forall_mem_cons, valueRow_selects, valueRow_mnemonic, hne,
    and_0x1F_eq_bit, and_0x1F_eq_zero, and_0x0F_eq, and_0x0E_eq_6, and_0x08_eq_8]
  obtain ⟨hs, hb, h⟩ | ⟨hs, hb, h⟩ | ⟨hs, h⟩ | ⟨hs, h⟩ | ⟨hs, h⟩ | ⟨hs, h⟩ | ⟨hs, h⟩ | ⟨h6, h7, h⟩ | ⟨h8, h⟩ :=
    decodeTrigger_cases v <;> simp [Instr.mnemonic, *]
  · grind
  · omega

/-- The mnemonics of R70 are distinct, so a frame that selects the rows with one mnemonic selects one row. -/
theorem selectedMnemonics_of_rows {m : String} {f : BitVec 24} (hm : m ∈ opRows.map (·.mnemonic))
    (hrows : ∀ r ∈ opRows, r.selects f = (r.mnemonic == m)) : selectedMnemonics f = [m] := by
  have hnodup : (opRows.map (·.mnemonic)).Nodup := by decide
  have hsel : (opRows.filter (·.selects f)).map (·.mnemonic) = [m] :=
    calc (opRows.filter (·.selects f)).map (·.mnemonic)
        = (opRows.filter (·.mnemonic == m)).map (·.mnemonic) := by rw [List.filter_congr hrows]
      _ = (opRows.map (·.mnemonic)).filter (· == m) := by rw [List.filter_map]; rfl
      _ = List.replicate ((opRows.map (·.mnemonic)).count m) m := List.filter_beq ..
      _ = [m] := by rw [List.count_eq_one_of_mem hnodup hm]; rfl
  rw [selectedMnemonics, hsel]

/-- Exactly one row applies to a frame, the row of the instruction it decodes to (R81). -/
theorem selectedMnemonics_frameWord (cmd v : Byte) :
    selectedMnemonics (frameWord frameStart cmd v) = [(decodeCommand cmd v).mnemonic] := by
  obtain rfl | rfl | ⟨hg, ht⟩ := commandByte_cases cmd
  · refine selectedMnemonics_of_rows ?_ (gateRow_selects v)
    rw [decodeCommand_gate]
    split <;> simp [opRows, Instr.mnemonic]
  · refine selectedMnemonics_of_rows ?_ (triggerRow_selects v)
    obtain ⟨-, -, h⟩ | ⟨-, -, h⟩ | ⟨-, h⟩ | ⟨-, h⟩ | ⟨-, h⟩ | ⟨-, h⟩ | ⟨-, h⟩ | ⟨-, -, h⟩ | ⟨-, h⟩ :=
      decodeTrigger_cases v <;> simp [decodeCommand_trigger, h, opRows, Instr.mnemonic]
  · have hnone : opRows.filter (·.selects (frameWord frameStart cmd v)) = [] := by
      simp [opRows_eq_valueRows, hg, ht]
    rw [decodeCommand_other hg ht, selectedMnemonics, hnone]
    exact if_pos (opRowNop_selects cmd v)

/-- Settles O18: by the command byte, each row of R70 against the decoder's condition for its instruction. -/
theorem opcodeMapIsUnambiguous : Obligations.OpcodeMapIsUnambiguous := fun cmd v =>
  ⟨selectedMnemonics_frameWord cmd v, wellFormed_decodeCommand cmd v, Machine.decodeCommand_isCommand cmd v⟩

end Sys2Proof

/-! ## Ignored bits (30_encoding.md R67) -/

namespace Sys2Proof.Machine

/-! ### The masked value byte in the decoder's fields -/

theorem and_0x07_fields (v : Byte) :
    v &&& 0x07#8 = (v &&& 0x04#8) ||| (gateChan v).setWidth 8 := by
  revert v
  decide

theorem and_0x1F_fields (v : Byte) :
    v &&& 0x1F#8 = (BitVec.ofBool (payloadBit v)).setWidth 8 <<< 4 ||| (v &&& 0x0F#8) := by
  revert v
  decide

theorem and_0x3F_fields (v : Byte) : v &&& 0x3F#8 = (trigChan v).setWidth 8 <<< 4 ||| (v &&& 0x0F#8) := by
  revert v
  decide

theorem and_0xFF_fields (v : Byte) : v &&& 0xFF#8 = (payload v).setWidth 8 <<< 4 ||| (v &&& 0x0F#8) := by
  revert v
  decide

/-! ### The used bits -/

theorem usedBits_gate (v : Byte) : usedBits cmdGate v = 0x07#8 := rfl

theorem usedBits_other {cmd : Byte} (hg : cmd ≠ cmdGate) (ht : cmd ≠ cmdTrigger) (v : Byte) :
    usedBits cmd v = 0xFF#8 :=
  (if_neg hg).trans (if_neg ht)

/-- Which bits of a trigger-configuration frame are used depends on its sub-command alone (R65). -/
theorem usedBits_of_subCommand {v w : Byte} (h : (subCommand v).toNat = (subCommand w).toNat) :
    usedBits cmdTrigger v = usedBits cmdTrigger w := by
  unfold usedBits
  rw [show (v.extractLsb' 0 4).toNat = (w.extractLsb' 0 4).toNat from h]

theorem usedBits_of_five_le {v : Byte} (h : 5 ≤ (subCommand v).toNat) : usedBits cmdTrigger v = 0x0F#8 := by
  have key : ∀ s : Nibble, 5 ≤ s.toNat → usedBits cmdTrigger (s.setWidth 8) = 0x0F#8 := by decide
  rw [← key _ h]
  apply usedBits_of_subCommand
  simp [subCommand]

/-- The bits of the sub-command are among the used ones. -/
theorem subCommand_usedBits (v : Byte) : subCommand (usedBits cmdTrigger v) = 0xF#4 := by
  rw [usedBits, if_neg (by decide), if_pos (show cmdTrigger = 0xFE#8 from rfl)]
  split <;> rfl

theorem subCommand_and_usedBits (v w : Byte) : subCommand (w &&& usedBits cmdTrigger v) = subCommand w :=
  BitVec.extractLsb'_and.trans
    ((congrArg (subCommand w &&& ·) (subCommand_usedBits v)).trans BitVec.and_allOnes)

/-- Frames that agree on the used bits of one of them have the same used bits. -/
theorem usedBits_congr {cmd v w : Byte} (h : v &&& usedBits cmd v = w &&& usedBits cmd v) :
    usedBits cmd w = usedBits cmd v := by
  obtain rfl | rfl | ⟨hg, ht⟩ := commandByte_cases cmd
  · rfl
  · apply usedBits_of_subCommand
    rw [← subCommand_and_usedBits v w, ← h, subCommand_and_usedBits]
  · rw [usedBits_other hg ht, usedBits_other hg ht]

/-! ### The canonical frame of a decoded frame -/

theorem valueByte_decodeTrigger (v : Byte) : (decodeTrigger v).valueByte = v &&& usedBits cmdTrigger v := by
  obtain ⟨hs, hb, h⟩ | ⟨hs, hb, h⟩ | ⟨hs, h⟩ | ⟨hs, h⟩ | ⟨hs, h⟩ | ⟨hs, h⟩ | ⟨hs, h⟩ | ⟨h6, -, h⟩ | ⟨h8, h⟩ :=
    decodeTrigger_cases v <;> rw [h]
  · rw [usedBits_of_subCommand (w := 0x00#8) hs]
    exact ((and_0x1F_eq_bit v).2 ⟨hs, hb⟩).symm
  · rw [usedBits_of_subCommand (w := 0x00#8) hs]
    exact ((and_0x1F_eq_zero v).2 ⟨hs, hb⟩).symm
  · rw [usedBits_of_subCommand (w := 0x01#8) hs]
    show _ = v &&& 0x3F#8
    rw [and_0x3F_fields, (and_0x0F_eq v 0x01#8).2 hs]
    rfl
  · rw [usedBits_of_subCommand (w := 0x02#8) hs]
    show _ = v &&& 0xFF#8
    rw [and_0xFF_fields, (and_0x0F_eq v 0x02#8).2 hs]
    rfl
  · rw [usedBits_of_subCommand (w := 0x03#8) hs]
    show _ = v &&& 0xFF#8
    rw [and_0xFF_fields, (and_0x0F_eq v 0x03#8).2 hs]
    rfl
  · rw [usedBits_of_subCommand (w := 0x04#8) hs]
    show _ = v &&& 0x1F#8
    rw [and_0x1F_fields, (and_0x0F_eq v 0x04#8).2 hs]
    cases payloadBit v <;> rfl
  · rw [usedBits_of_five_le hs.ge]
    exact ((and_0x0F_eq v 0x05#8).2 hs).symm
  · rw [usedBits_of_five_le (by omega)]
    exact (and_0x0F v).symm
  · rw [usedBits_of_five_le (by omega)]
    exact (and_0x0F v).symm

theorem valueByte_decodeCommand (cmd v : Byte) : (decodeCommand cmd v).valueByte = v &&& usedBits cmd v := by
  obtain rfl | rfl | ⟨hg, ht⟩ := commandByte_cases cmd
  · rw [decodeCommand_gate, usedBits_gate, and_0x07_fields]
    cases hen : gateEnableBit v with
    | true =>
      rw [(and_0x04_eq_bit v).2 hen]
      rfl
    | false =>
      rw [(and_0x04_eq_zero v).2 hen, BitVec.zero_or]
      rfl
  · exact valueByte_decodeTrigger v
  · rw [decodeCommand_other hg ht, usedBits_other hg ht]
    exact BitVec.and_allOnes.symm

/-- Clearing the ignored bits of a frame does not change what it decodes to: it is the canonical frame of that
instruction (R67, R77). -/
theorem decodeCommand_and_usedBits (cmd v : Byte) :
    decodeCommand cmd (v &&& usedBits cmd v) = decodeCommand cmd v := by
  have h := decodeCommand_canonical (decodeCommand_isCommand cmd v) (wellFormed_decodeCommand cmd v)
  rwa [commandByte_decodeCommand, valueByte_decodeCommand] at h

theorem decodeCommand_congr {cmd v w : Byte} (h : v &&& usedBits cmd v = w &&& usedBits cmd v) :
    decodeCommand cmd v = decodeCommand cmd w := by
  rw [← decodeCommand_and_usedBits cmd v, h, ← usedBits_congr h, decodeCommand_and_usedBits]

theorem encode_decodeCommand (cmd v : Byte) :
    encode (decodeCommand cmd v) = [frameStart, cmd, v &&& usedBits cmd v] := by
  rw [encode_command (decodeCommand_isCommand cmd v), commandFrame, commandByte_decodeCommand,
    valueByte_decodeCommand]

/-- Settles O19: a frame decodes as its canonical frame does, and that keeps the used bits only. -/
theorem ignoredBitsHaveNoEffect : Obligations.IgnoredBitsHaveNoEffect :=
  ⟨fun _ _ _ h => ⟨decodeCommand_congr h, fun s => by rw [decodeCommand_congr h]⟩, encode_decodeCommand⟩

/-! ## The level (30_encoding.md R66, R79) -/

theorem sint16_eq_toInt (w : Word) : sint16 w = w.toInt := by
  rw [BitVec.toInt_eq_msb_cond, BitVec.msb_eq_getLsbD_last]
  rfl

/-- The committed level is the signed byte {stage, n} times 256. -/
theorem sint16_levelOf (stage n : Nibble) : sint16 (levelOf stage n) = (stage ++ n).toInt * 256 := by
  have h : (levelOf stage n).toInt = 2 ^ 8 * (stage ++ n).toInt + (0 : Nat) := BitVec.toInt_append
  rw [sint16_eq_toInt, h]
  omega

theorem execAll_level (a n : Nibble) (s : State) :
    execAll [.lvlhi a, .lvllo n] s =
      .next { s with trig := { s.trig with levelStage := a, level := levelOf a n } } := rfl

/-- Settles O36: the two commands commit the level {a, n, 0x00}, whose signed value is that of its upper byte times
256; LEVEL k runs them on the nibbles of k. -/
theorem levelIsTheSignedByteTimes256 : Obligations.LevelIsTheSignedByteTimes256 := by
  refine ⟨fun a n s => ⟨_, execAll_level a n s, sint16_levelOf a n, ?_⟩, fun k s =>
    ⟨_, execAll_level _ _ s, ?_⟩⟩
  · have hlo : -2 ^ 7 ≤ (a ++ n).toInt := BitVec.le_toInt _
    have hhi : (a ++ n).toInt < 2 ^ 7 := BitVec.toInt_lt
    show -32768 ≤ sint16 (levelOf a n) ∧ sint16 (levelOf a n) ≤ 32512
    rw [sint16_levelOf]
    omega
  · have hk : k.extractLsb' 4 4 ++ k.extractLsb' 0 4 = k := BitVec.extractLsb'_append_extractLsb'
    refine (sint16_levelOf _ _).trans ?_
    rw [hk]

end Sys2Proof.Machine

/-! ## The codec (40_protocol_codec.md R83–R91)

The response frames (R90, R91), then the decoder's step in each of its states (R84, R127), and from these the frame,
the run of stray bytes and the sequence of commands. -/

namespace Sys2Proof.Machine

/-! ### The response frames (R90, R91, R94) -/

theorem encodeFrame_unmarked (c : Chan) (raw : Word) :
    encodeFrame ⟨false, c, raw⟩ =
      [0xAA#8, c.zeroExtend 8, raw.extractLsb' 8 8, raw.extractLsb' 0 8, 0x55#8] := rfl

theorem encodeFrame_marked (c : Chan) (raw : Word) :
    encodeFrame ⟨true, c, raw⟩ =
      [0xAA#8, c.zeroExtend 8, raw.extractLsb' 8 8, raw.extractLsb' 0 8, 0xCC#8, 0x55#8] := rfl

/-- The byte a host looks at for the marker: the fourth after FRAME_START (R94). -/
def markByte (mk : Bool) : Byte := if mk then triggerMark else frameEnd

theorem markByte_eq_triggerMark (mk : Bool) : markByte mk = 0xCC#8 ↔ mk = true := by
  revert mk
  decide

/-- The five bytes a host reads at a frame start, and what is left for it after them. -/
theorem encodeFrame_append (e : Sample) (rest : List Byte) :
    encodeFrame e ++ rest =
      0xAA#8 :: e.ch.setWidth 8 :: e.raw.extractLsb' 8 8 :: e.raw.extractLsb' 0 8 :: markByte e.mark ::
        ((if e.mark then [frameEnd] else []) ++ rest) := by
  obtain ⟨mk, c, raw⟩ := e
  cases mk <;> rfl

/-- Settles O21: the two layouts, the length, and the five bytes the host reads, which determine the sample. -/
theorem encodeFrameLayoutAndRoundTrip : Obligations.EncodeFrameLayoutAndRoundTrip := by
  refine ⟨fun c raw => ⟨encodeFrame_unmarked c raw, encodeFrame_marked c raw⟩, encodeFrame_length, fun e rest =>
    ⟨⟨_, _, _, _, _, encodeFrame_append e rest, channelByte_chan e.ch, ?_, markByte_eq_triggerMark e.mark⟩,
      decodeResponse_encodeFrame e rest⟩⟩
  exact BitVec.extractLsb'_append_extractLsb'

theorem exec_data (c : Chan) (raw : Word) (s : State) :
    exec (.data c raw) s = .next (emit ⟨false, c, raw⟩ s) := exec_responseOf ⟨false, c, raw⟩ s

theorem exec_datamk (c : Chan) (raw : Word) (s : State) :
    exec (.datamk c raw) s = .next (emit ⟨true, c, raw⟩ s) := exec_responseOf ⟨true, c, raw⟩ s

@[simp] theorem readSlot_emit (e : Sample) (s : State) (k : Nat) : readSlot (emit e s) k = readSlot s k := by
  simp [readSlot]

theorem rspRoom_of_unbounded {s : State} (h : s.cfg.rspDepth = none) (n : Nat) : rspRoom s n = true := by
  rw [rspRoom, h, room_none]

theorem rspRoom_iff_of_depth {s : State} {d : Nat} (h : s.cfg.rspDepth = some d) (n : Nat) :
    rspRoom s n = true ↔ s.rspOut.length + n ≤ d := by
  rw [rspRoom, h, room_some]

/-- Settles O42: DATA and DATAMK are EMIT of an unmarked and of a marked sample, with room and without. -/
theorem emissionAppendsOneFrameOrHolds : Obligations.EmissionAppendsOneFrameOrHolds := by
  intro c raw s
  simp only [exec_data, exec_datamk, ← encodeFrame_unmarked, ← encodeFrame_marked]
  refine ⟨fun h => congrArg _ (emit_room h), fun h => congrArg _ (emit_hold h),
    fun h => congrArg _ (emit_room h), fun h => congrArg _ (emit_hold h),
    fun h => ⟨rspRoom_of_unbounded h 5, rspRoom_of_unbounded h 6⟩,
    fun d n h => rspRoom_iff_of_depth h n, ?_⟩
  rintro t k (h | h) <;> cases h
  · exact readSlot_emit _ s k
  · exact readSlot_emit _ s k

/-- Settles O39: CMDNOP's meaning is the state it was given, and the dispatch leaves it every other command byte. -/
theorem unrecognisedCommandsDoNothing : Obligations.UnrecognisedCommandsDoNothing :=
  ⟨fun _ _ _ => rfl, fun _ v ht hg => decodeCommand_other hg ht v⟩

/-! ### The step of a phase and of each decoder state (R84, R127, 44_acquisition_cycle.md R134) -/

section Steps

variable {s : State} {b : Byte} {rest : List Byte}

theorem blockStep_of_cmd (hp : s.phase = .cmd) : blockStep s = cmdStep s := by
  rw [blockStep, hp]

theorem blockStep_of_drain (hp : s.phase = .drain) : blockStep s = drainStep s := by
  rw [blockStep, hp]

theorem cmdStep_nil (hc : s.cmdIn = []) : cmdStep s = .next { s with phase := .waitSmp } := by
  rw [cmdStep, hc]

theorem cmdStep_cons (hc : s.cmdIn = b :: rest) : cmdStep s = decodeByte b { s with cmdIn := rest } := by
  rw [cmdStep, hc]

theorem decodeByte_start (hd : s.dstate = .idle) :
    decodeByte 0xAA#8 s = .next { s with dstate := .gotStart } := by
  rw [decodeByte, hd]
  rfl

theorem decodeByte_stray (hd : s.dstate = .idle) (hb : b ≠ 0xAA#8) : decodeByte b s = .next s := by
  rw [decodeByte, hd]
  exact if_neg hb

theorem decodeByte_command (hd : s.dstate = .gotStart) :
    decodeByte b s = .next { s with dcmd := b, dstate := .gotCmd } := by
  rw [decodeByte, hd]

theorem decodeByte_value (hd : s.dstate = .gotCmd) :
    decodeByte b s = exec (decodeCommand s.dcmd b) { s with dstate := .idle } := by
  rw [decodeByte, hd]

theorem blockStep_start (hp : s.phase = .cmd) (hd : s.dstate = .idle) (hc : s.cmdIn = 0xAA#8 :: rest) :
    blockStep s = .next { s with cmdIn := rest, dstate := .gotStart } := by
  rw [blockStep_of_cmd hp, cmdStep_cons hc]
  exact decodeByte_start hd

theorem blockStep_stray (hp : s.phase = .cmd) (hd : s.dstate = .idle) (hb : b ≠ 0xAA#8)
    (hc : s.cmdIn = b :: rest) : blockStep s = .next { s with cmdIn := rest } := by
  rw [blockStep_of_cmd hp, cmdStep_cons hc]
  exact decodeByte_stray hd hb

theorem blockStep_command (hp : s.phase = .cmd) (hd : s.dstate = .gotStart) (hc : s.cmdIn = b :: rest) :
    blockStep s = .next { s with cmdIn := rest, dcmd := b, dstate := .gotCmd } := by
  rw [blockStep_of_cmd hp, cmdStep_cons hc]
  exact decodeByte_command hd

theorem blockStep_value (hp : s.phase = .cmd) (hd : s.dstate = .gotCmd) (hc : s.cmdIn = b :: rest) :
    blockStep s = exec (decodeCommand s.dcmd b) { s with cmdIn := rest, dstate := .idle } := by
  rw [blockStep_of_cmd hp, cmdStep_cons hc]
  exact decodeByte_value hd

/-- The DRAIN step with room: the response instruction of the oldest entry, on the state without that entry. -/
theorem drainStep_room (hc : 0 < s.count) (ht : s.tail < s.cfg.cap)
    (hr : rspRoom s (frameLen (readSlot s s.tail).mark) = true) :
    drainStep s = andThen
      (exec (responseOf (readSlot s s.tail)) { s with tail := (s.tail + 1) % s.cfg.cap, count := s.count - 1 })
      fun t => .next (finishDrain t) := by
  simp [drainStep, pop_completes hc ht, hr]

theorem step_of_no_turn (h : turns s = []) : step s = blockStep s := by
  rw [step, turnStep, ← turns, h]

theorem step_of_block_turn {more : List Agent} (h : turns s = .block :: more) :
    step s = blockStep { s with sched := more } := by
  rw [step, turnStep, ← turns, h]
  rfl

end Steps

/-- Settles O24: the empty queue, then one rule per decoder state. -/
theorem decoderConsumesOneBytePerStep : Obligations.DecoderConsumesOneBytePerStep := by
  refine ⟨fun s hp hc => (blockStep_of_cmd hp).trans (cmdStep_nil hc), fun s b rest hp hc =>
    ⟨fun hd hb => ?_, fun hd hb => blockStep_stray hp hd hb hc, fun hd => blockStep_command hp hd hc,
      fun hd => blockStep_value hp hd hc⟩⟩
  subst hb
  exact blockStep_start hp hd hc

/-- Settles O23: the block's step of the value byte and of the DRAIN phase, in the turns that are the block's. -/
theorem stepRunsTheDecodedInstruction : Obligations.StepRunsTheDecodedInstruction := by
  refine ⟨fun s v rest hp hd hc => ⟨fun hn => ?_, fun more hb => ?_⟩, ?_⟩
  · exact (step_of_no_turn hn).trans (blockStep_value hp hd hc)
  · exact (step_of_block_turn hb).trans (blockStep_value (s := { s with sched := more }) hp hd hc)
  · rintro s e hp hc ht rfl hr hn
    rw [step_of_no_turn hn, blockStep_of_drain hp]
    exact drainStep_room hc ht hr

/-! ### Frames, stray bytes and sequences of commands (R83, R87, R88) -/

theorem blockSteps_succ_of_next {s t : State} {n : Nat} (h : blockStep s = .next t) :
    blockSteps (n + 1) s = blockSteps n t := by
  rw [blockSteps, h, andThen_next]

theorem blockSteps_one (s : State) : blockSteps 1 s = blockStep s := by
  unfold blockSteps
  cases blockStep s <;> rfl

/-- From IDLE a frame's three bytes take three steps, and the command executes in the third (R83). -/
theorem blockSteps_frame {s : State} {cmd v : Byte} {rest : List Byte} (hp : s.phase = .cmd)
    (hd : s.dstate = .idle) (hc : s.cmdIn = 0xAA#8 :: cmd :: v :: rest) :
    blockSteps 3 s = exec (decodeCommand cmd v) { s with cmdIn := rest, dcmd := cmd } := by
  calc blockSteps 3 s
      = blockSteps 2 { s with cmdIn := cmd :: v :: rest, dstate := .gotStart } :=
        blockSteps_succ_of_next (blockStep_start hp hd hc)
    _ = blockSteps 1 { s with cmdIn := v :: rest, dcmd := cmd, dstate := .gotCmd } :=
        blockSteps_succ_of_next (blockStep_command hp rfl rfl)
    _ = blockStep { s with cmdIn := v :: rest, dcmd := cmd, dstate := .gotCmd } := blockSteps_one _
    _ = exec (decodeCommand cmd v) { s with cmdIn := rest, dcmd := cmd, dstate := .idle } :=
        blockStep_value hp rfl rfl
    _ = exec (decodeCommand cmd v) { s with cmdIn := rest, dcmd := cmd } := by rw [← hd]

/-- Settles O25: `decode` reads the frame that the three steps of the decoder run. -/
theorem frameExecutesInThreeSteps : Obligations.FrameExecutesInThreeSteps := by
  intro s cmd v rest hp hd hc
  refine ⟨?_, blockSteps_frame hp hd hc⟩
  rw [hc]
  rfl

/-- Settles O27, by induction on the run: each stray byte is one step, back in IDLE. -/
theorem strayBytesAreSkipped : Obligations.StrayBytesAreSkipped := by
  intro bs rest
  induction bs with
  | nil =>
    intro s _ _ _ hc
    obtain rfl : s.cmdIn = rest := hc
    rfl
  | cons b bs ih =>
    intro s hbs hp hd hc
    obtain ⟨hb, hbs⟩ := List.forall_mem_cons.1 hbs
    calc blockSteps (bs.length + 1) s
        = blockSteps bs.length { s with cmdIn := bs ++ rest } :=
          blockSteps_succ_of_next (blockStep_stray hp hd hb hc)
      _ = .next { s with cmdIn := rest } := ih _ hbs hp hd rfl

/-- A command neither reads nor writes the command bytes and the decoder's command byte. -/
theorem exec_command_setDecoder {i : Instr} {s t : State} (hi : i.isCommand = true) (h : exec i s = .next t)
    (q : List Byte) (d : Byte) :
    exec i { s with cmdIn := q, dcmd := d } = .next { t with cmdIn := q, dcmd := d } := by
  cases i with
  | data | datamk => cases hi
  | _ => cases h; rfl

/-- The canonical frame of a command executes it in three steps. -/
theorem blockSteps_encode {i : Instr} {s : State} {rest : List Byte} (hw : i.wellFormed = true)
    (hi : i.isCommand = true) (hp : s.phase = .cmd) (hd : s.dstate = .idle) (hc : s.cmdIn = encode i ++ rest) :
    blockSteps 3 s = exec i { s with cmdIn := rest, dcmd := i.commandByte } := by
  have hc : s.cmdIn = 0xAA#8 :: i.commandByte :: i.valueByte :: rest := by
    rw [hc, encode_command hi]
    rfl
  rw [blockSteps_frame hp hd hc, decodeCommand_canonical hi hw]

/-- The command byte held after a list of commands: the last one's, or the one held before. -/
theorem lastCommandByte_cons (i : Instr) (is : List Instr) (d : Byte) :
    ((i :: is).getLast?.map Instr.commandByte).getD d =
      (is.getLast?.map Instr.commandByte).getD i.commandByte := by
  rw [List.getLast?_cons, Option.map_some, Option.getD_some, Option.getD_map]

/-- Settles O26, by induction on the commands: the first one executes in three steps and leaves the block in CMD and
IDLE with the other frames in front. What it does is the same with all the frames consumed beforehand
(`exec_command_setDecoder`). -/
theorem commandsExecuteInStreamOrder : Obligations.CommandsExecuteInStreamOrder := by
  intro is
  induction is with
  | nil =>
    intro s rest _ _ _ hc
    obtain rfl : s.cmdIn = rest := hc
    rfl
  | cons i is ih =>
    intro s rest his hp hd hc
    obtain ⟨⟨hw, hi⟩, his⟩ := List.forall_mem_cons.1 his
    rw [List.flatMap_cons, List.append_assoc] at hc
    obtain ⟨t, ht⟩ := exec_completes i { s with cmdIn := is.flatMap encode ++ rest, dcmd := i.commandByte }
    have hfirst : blockSteps 3 s = .next t := (blockSteps_encode hw hi hp hd hc).trans ht
    have hframe := exec_command_cases hi ht
    have hothers := ih t rest his (by rw [hframe]; exact hp) (by rw [hframe]; exact hd) (by rw [hframe])
    have hdcmd : t.dcmd = i.commandByte := by rw [hframe]
    have hall := exec_command_setDecoder hi ht rest ((is.getLast?.map Instr.commandByte).getD i.commandByte)
    calc blockSteps (3 * (is.length + 1)) s
        = blockSteps (3 * is.length) t := by
          rw [Nat.mul_succ, Nat.add_comm, blockSteps_add, hfirst, andThen_next]
      _ = execAll is { t with
            cmdIn := rest, dcmd := (is.getLast?.map Instr.commandByte).getD i.commandByte } := by
          rw [hothers, hdcmd]
      _ = execAll (i :: is) { s with
            cmdIn := rest, dcmd := ((i :: is).getLast?.map Instr.commandByte).getD s.dcmd } := by
          rw [lastCommandByte_cons, execAll, hall, andThen_next]

end Sys2Proof.Machine

/-! ## The channel gate and the frame of the commands (41_channel_gate.md R95–R99)

The bits of a mask after each operation of the gate, then the two gate commands by these and by the population count
of R97. -/

namespace Sys2Proof.Machine

/-! ### The bits of a mask (00_scope.md R11) -/

theorem maskBit_maskSet (m : Mask) (c k : Chan) : maskBit (maskSet m c) k = (k == c || maskBit m k) := by
  revert m c k
  decide

theorem maskBit_maskClear (m : Mask) (c k : Chan) : maskBit (maskClear m c) k = (maskBit m k && k != c) := by
  revert m c k
  decide

theorem maskBit_maskSet_same (m : Mask) (c : Chan) : maskBit (maskSet m c) c = true := by
  rw [maskBit_maskSet, beq_self_eq_true, Bool.true_or]

/-- The eviction takes at most one channel out of the mask, the first that R95 names. -/
theorem maskBit_maskEvict (m : Mask) (c k : Chan) :
    maskBit (maskEvict m c) k =
      (maskBit m k && !(
        if maskBit m 0#2 && maskBit m 1#2 then k == 0#2
        else if maskBit m 2#2 && maskBit m 3#2 then k == 2#2
        else popcount m == 2 && !maskBit m c && k == c ^^^ 1#2)) := by
  unfold maskEvict
  split
  · exact maskBit_maskClear m 0#2 k
  split
  · exact maskBit_maskClear m 2#2 k
  split
  · next hpartner =>
    have hcond : (popcount m == 2 && !maskBit m c) = true := hpartner
    rw [hcond, Bool.true_and]
    exact maskBit_maskClear m (c ^^^ 1#2) k
  · next hnone =>
    have hcond : (popcount m == 2 && !maskBit m c) = false := eq_false_of_ne_true hnone
    rw [hcond, Bool.false_and, Bool.not_false, Bool.and_true]

/-! ### CHEN and CHDIS -/

theorem exec_chen (c : Chan) (s : State) :
    exec (.chen c) s = .next { s with mask := maskSet (maskEvict s.mask c) c } := rfl

theorem exec_chdis (c : Chan) (s : State) :
    exec (.chdis c) s = .next { s with mask := maskClear s.mask c } := rfl

/-- A gate command keeps the bound of R97. -/
theorem exec_gate_popcount_le {i : Instr} {s t : State} (hi : ∃ c, i = .chen c ∨ i = .chdis c)
    (hs : popcount s.mask ≤ 2) (he : exec i s = .next t) : popcount t.mask ≤ 2 := by
  obtain ⟨c, rfl | rfl⟩ := hi
  · cases he
    exact popcount_chen_le s.mask c hs
  · cases he
    exact (popcount_maskClear_le s.mask c).trans hs

/-- So does a sequence of them, by induction on it. -/
theorem execAll_gate_popcount_le {is : List Instr} {s : State} (his : ∀ i ∈ is, ∃ c, i = .chen c ∨ i = .chdis c)
    (hs : popcount s.mask ≤ 2) : ∃ t, execAll is s = .next t ∧ popcount t.mask ≤ 2 := by
  induction is generalizing s with
  | nil => exact ⟨s, rfl, hs⟩
  | cons i is ih =>
    obtain ⟨hi, his⟩ := List.forall_mem_cons.1 his
    obtain ⟨u, hu⟩ := exec_completes i s
    rw [execAll, hu, andThen_next]
    exact ih his (exec_gate_popcount_le hi hs hu)

/-- Settles O31: each gate command keeps the bound, CHEN sets its own bit last, and sequences follow by induction. -/
theorem gateSequencesKeepAtMostTwoChannels : Obligations.GateSequencesKeepAtMostTwoChannels := by
  refine ⟨fun c s t hs he => ⟨exec_gate_popcount_le ⟨c, .inl rfl⟩ hs he, ?_⟩,
    fun c s t hs he => exec_gate_popcount_le ⟨c, .inr rfl⟩ hs he,
    fun is s his hs => execAll_gate_popcount_le his hs⟩
  cases he
  exact maskBit_maskSet_same _ c

/-- Settles O29: bit k of CHEN's mask is the bit set, or a bit that the eviction left. -/
theorem chenEvictsThenEnables : Obligations.ChenEvictsThenEnables :=
  ⟨fun c s => ⟨_, exec_chen c s, fun k => by rw [maskBit_maskSet, maskBit_maskEvict]⟩,
    fun v hv => (decodeCommand_gate v).trans (if_pos hv)⟩

/-- Settles O30: CHDIS's mask is the old one with bit c cleared. -/
theorem chdisClearsItsChannel : Obligations.ChdisClearsItsChannel :=
  ⟨fun c s => ⟨_, exec_chdis c s, maskBit_maskClear s.mask c⟩,
    fun v hv => (decodeCommand_gate v).trans (if_neg (Bool.eq_false_iff.1 hv))⟩

/-! ### The frame of the commands (R99, 42_trigger_engine.md R108, 43_ring_buffer.md R124) -/

theorem exec_gate_trig {i : Instr} {s t : State} (hi : ∃ c, i = .chen c ∨ i = .chdis c)
    (he : exec i s = .next t) : t.trig = s.trig := by
  obtain ⟨c, rfl | rfl⟩ := hi <;> cases he <;> rfl

/-- A command other than TRIGON and TRIGOFF leaves `armed`, other than TRIGON and FORCE `triggered`: a flag that moved
rose or fell, and `exec_command_flags` names the command of either. -/
theorem exec_command_armed_triggered {i : Instr} {s t : State} (hi : i.isCommand = true)
    (he : exec i s = .next t) (hon : i ≠ .trigon) :
    (i ≠ .trigoff → t.trig.armed = s.trig.armed) ∧ (i ≠ .force → t.trig.triggered = s.trig.triggered) := by
  obtain ⟨-, harm, hdisarm, hforce, hclear, -⟩ := exec_command_flags hi he
  constructor
  · intro hoff
    cases hs : s.trig.armed with
    | false => exact eq_false_of_ne_true fun ht => hon (harm hs ht)
    | true => exact eq_true_of_ne_false fun ht => hoff (hdisarm hs ht)
  · intro hf
    cases hs : s.trig.triggered with
    | false => exact eq_false_of_ne_true fun ht => hf (hforce hs ht)
    | true => exact eq_true_of_ne_false fun ht => hon (hclear hs ht)

/-- No command writes the buffer's storage. -/
theorem exec_command_readSlot {i : Instr} {s t : State} (hi : i.isCommand = true) (he : exec i s = .next t)
    (k : Nat) : readSlot t k = readSlot s k := by
  rw [exec_command_cases hi he]
  rfl

/-- Settles O41: a command writes nothing but the mask and the trigger fields, and what it does not write of these is
the contraposition of who writes each (`exec_command_config`, `exec_command_flags`). -/
theorem commandFrame : Obligations.CommandFrame := by
  intro i s hi
  obtain ⟨t, he⟩ := exec_completes i s
  obtain ⟨hmask, hedge, hchannel, hlevel, hstage⟩ := exec_command_config hi he
  obtain ⟨henabled, -, -, -, -, habove⟩ := exec_command_flags hi he
  exact ⟨t, he, exec_command_cases hi he, fun hgate => exec_gate_trig hgate he,
    fun h => not_imp_comm.1 hmask fun ⟨c, hc⟩ => hc.elim (h c).1 (h c).2,
    habove,
    fun hon hoff => ⟨not_imp_comm.1 henabled (not_or_intro hon hoff),
      (exec_command_armed_triggered hi he hon).1 hoff⟩,
    fun hon hforce => (exec_command_armed_triggered hi he hon).2 hforce,
    fun h => not_imp_comm.1 hedge (not_exists.2 h),
    fun h => not_imp_comm.1 hchannel (not_exists.2 h),
    fun h => not_imp_comm.1 hlevel (not_exists.2 h),
    fun h => not_imp_comm.1 hstage (not_exists.2 h),
    exec_command_readSlot hi he⟩

end Sys2Proof.Machine

/-! ## The trigger engine (42_trigger_engine.md R100–R114)

What EVAL does to the hysteresis flag is said once (`aboveNext_rises_iff`, `aboveNext_falls_iff`), and when it fires
follows from that (`evalFires_iff`). A sample that leaves the flag alone leaves every field alone
(`evalTrig_of_above_kept`); the laws of R112–R114 are this along sequences of samples, with the one sample that fires
in between (`evalMarks_append_cons`). -/

namespace Sys2Proof.Machine

section Eval

variable {h : Nat} {t : Trig} {w : Word}

/-! ### EVAL (R111) -/

theorem aboveNext_rises_iff (ha : t.above = false) :
    aboveNext h t w = true ↔ hiThreshold h t.level < sint16 w := by
  simp [aboveNext, ha]

theorem aboveNext_falls_iff (ha : t.above = true) :
    aboveNext h t w = false ↔ sint16 w < loThreshold h t.level := by
  simp [aboveNext, ha]

/-- A sample not above `hi` leaves a cleared flag. -/
theorem aboveNext_kept_low (ha : t.above = false) (hw : sint16 w ≤ hiThreshold h t.level) :
    aboveNext h t w = t.above := by
  rw [ha, ← Bool.not_eq_true, aboveNext_rises_iff ha]
  exact hw.not_gt

/-- A sample not below `lo` leaves a set flag. -/
theorem aboveNext_kept_high (ha : t.above = true) (hw : loThreshold h t.level ≤ sint16 w) :
    aboveNext h t w = t.above := by
  rw [ha, ← Bool.not_eq_false, aboveNext_falls_iff ha]
  exact hw.not_gt

/-- EVAL fires exactly if armed and the flag makes the transition of the configured edge. -/
theorem evalFires_iff :
    evalFires h t w = true ↔ t.armed = true ∧
      ((t.edge = .rising ∧ t.above = false ∧ aboveNext h t w = true) ∨
       (t.edge = .falling ∧ t.above = true ∧ aboveNext h t w = false)) := by
  cases he : t.edge <;> simp [evalFires, edgeEvent, he, and_comm]

/-- A fire leaves the flag at the value its edge ends in (R114). -/
theorem aboveNext_of_rising_fire (hf : evalFires h t w = true) (he : t.edge = .rising) :
    aboveNext h t w = true := by
  obtain ⟨-, ⟨-, -, hset⟩ | ⟨hfall, -, -⟩⟩ := evalFires_iff.1 hf
  · exact hset
  · simp [he] at hfall

theorem aboveNext_of_falling_fire (hf : evalFires h t w = true) (he : t.edge = .falling) :
    aboveNext h t w = false := by
  obtain ⟨-, ⟨hrise, -, -⟩ | ⟨-, -, hclear⟩⟩ := evalFires_iff.1 hf
  · simp [he] at hrise
  · exact hclear

theorem evalFires_of_disarmed (ha : t.armed = false) : evalFires h t w = false := by
  rw [evalFires, ha, Bool.and_false]

theorem evalTrig_of_fire (hf : evalFires h t w = true) :
    evalTrig h t w = { t with above := aboveNext h t w, triggered := true, armed := false } := by
  simp [evalTrig, hf]

theorem evalTrig_of_no_fire (hf : evalFires h t w = false) :
    evalTrig h t w = { t with above := aboveNext h t w } := by
  simp [evalTrig, hf]

/-- There is no edge event without a transition of the flag. -/
theorem evalFires_of_above_kept (hk : aboveNext h t w = t.above) : evalFires h t w = false := by
  rw [← Bool.not_eq_true, evalFires_iff, hk]
  rintro ⟨-, ⟨-, h0, h1⟩ | ⟨-, h1, h0⟩⟩ <;> simp [h0] at h1

theorem evalTrig_of_above_kept (hk : aboveNext h t w = t.above) : evalTrig h t w = t := by
  rw [evalTrig_of_no_fire (evalFires_of_above_kept hk), hk]

end Eval

/-- Settles O44: the transitions of the flag, the fire, and the flags after a fire and without one. -/
theorem evalIsASchmittTrigger : Obligations.EvalIsASchmittTrigger := by
  intro h t w
  simp only [← sint16_eq_toInt]
  exact ⟨aboveNext_rises_iff, aboveNext_falls_iff, evalFires_iff,
    fun hf => by rw [evalTrig_of_fire hf]; exact ⟨rfl, rfl⟩,
    fun hf => by rw [evalTrig_of_no_fire hf]; exact ⟨rfl, rfl⟩,
    rfl, rfl, rfl, rfl, rfl⟩

/-! ### Sequences of evaluated samples (R112–R114) -/

section Sequences

variable {h : Nat} {t : Trig}

/-- Samples that leave the hysteresis flag alone leave every field alone, and none fires. -/
theorem evalSeq_of_above_kept {ws : List Word} (hk : ∀ x ∈ ws, aboveNext h t x = t.above) :
    evalSeq h t ws = t ∧ evalMarks h t ws = List.replicate ws.length false := by
  induction ws with
  | nil => exact ⟨rfl, rfl⟩
  | cons w ws ih =>
    obtain ⟨hw, hws⟩ := List.forall_mem_cons.1 hk
    obtain ⟨hseq, hmarks⟩ := ih hws
    rw [evalSeq, evalMarks, evalTrig_of_above_kept hw, evalFires_of_above_kept hw, hmarks]
    exact ⟨hseq, rfl⟩

/-- While the engine is disarmed no sample fires, and none arms it. -/
theorem evalSeq_of_disarmed (ws : List Word) (ha : t.armed = false) :
    evalMarks h t ws = List.replicate ws.length false ∧ (evalSeq h t ws).armed = false := by
  induction ws generalizing t with
  | nil => exact ⟨rfl, ha⟩
  | cons w ws ih =>
    have hf : evalFires h t w = false := evalFires_of_disarmed ha
    obtain ⟨hmarks, harmed⟩ := ih (t := evalTrig h t w) (by rw [evalTrig_of_no_fire hf]; exact ha)
    rw [evalSeq, evalMarks, hf, hmarks]
    exact ⟨rfl, harmed⟩

/-- The first sample that may move the flag meets the fields as they were at the start. -/
theorem evalMarks_append_cons {before : List Word} (hk : ∀ x ∈ before, aboveNext h t x = t.above) (w : Word)
    (after : List Word) :
    evalMarks h t (before ++ w :: after) =
      List.replicate before.length false ++ evalFires h t w :: evalMarks h (evalTrig h t w) after := by
  induction before with
  | nil => rfl
  | cons x xs ih =>
    obtain ⟨hx, hxs⟩ := List.forall_mem_cons.1 hk
    rw [List.cons_append, evalMarks, evalFires_of_above_kept hx, evalTrig_of_above_kept hx, ih hxs]
    rfl

/-- If that sample fires, it is the only one of the sequence that does: the fire disarms the engine. -/
theorem evalMarks_first_fire {before : List Word} {w : Word} (hk : ∀ x ∈ before, aboveNext h t x = t.above)
    (hf : evalFires h t w = true) (after : List Word) :
    evalMarks h t (before ++ w :: after) =
      List.replicate before.length false ++ true :: List.replicate after.length false := by
  have hdisarmed : (evalTrig h t w).armed = false := by rw [evalTrig_of_fire hf]
  rw [evalMarks_append_cons hk, hf, (evalSeq_of_disarmed after hdisarmed).1]

/-- R113 with the flag set. -/
theorem evalMarks_falling {before : List Word} {w : Word} (he : t.edge = .falling) (harm : t.armed = true)
    (ha : t.above = true) (hbefore : ∀ x ∈ before, loThreshold h t.level ≤ sint16 x)
    (hw : sint16 w < loThreshold h t.level) (after : List Word) :
    evalMarks h t (before ++ w :: after) =
      List.replicate before.length false ++ true :: List.replicate after.length false :=
  evalMarks_first_fire (fun x hx => aboveNext_kept_high ha (hbefore x hx))
    (evalFires_iff.2 ⟨harm, .inr ⟨he, ha, (aboveNext_falls_iff ha).2 hw⟩⟩) after

end Sequences

/-- Settles O45: the samples before the crossing keep the flag cleared; inside the band a sample keeps either value. -/
theorem risingEdgeFiresExactlyOnce : Obligations.RisingEdgeFiresExactlyOnce := by
  refine ⟨fun h t before after w he harm ha hbefore hw => ?_, fun h t ws hband => ?_⟩
  · exact evalMarks_first_fire (fun x hx => aboveNext_kept_low ha (hbefore x hx))
      (evalFires_iff.2 ⟨harm, .inl ⟨he, ha, (aboveNext_rises_iff ha).2 hw⟩⟩) after
  · refine evalSeq_of_above_kept fun x hx => ?_
    obtain ⟨hlo, hhi⟩ := hband x hx
    cases ha : t.above with
    | false => exact (aboveNext_kept_low ha hhi).trans ha
    | true => exact (aboveNext_kept_high ha hlo).trans ha

/-- Settles O46: from a cleared flag the upper crossing sets it without a fire, and leaves the case of a set flag. -/
theorem fallingEdgeNeedsTheUpperCrossingFirst : Obligations.FallingEdgeNeedsTheUpperCrossingFirst := by
  refine ⟨fun h t before after w he harm ha hbefore hw => evalMarks_falling he harm ha hbefore hw after,
    fun h t low mid after u w he harm ha hlow hu hmid hw => ?_,
    fun h t ws _ ha hws => (evalSeq_of_above_kept fun x hx => aboveNext_kept_low ha (hws x hx)).2⟩
  have hrise : aboveNext h t u = true := (aboveNext_rises_iff ha).2 hu
  have hquiet : evalFires h t u = false := by simp [← Bool.not_eq_true, evalFires_iff, he, ha]
  have hset : evalTrig h t u = { t with above := true } := by rw [evalTrig_of_no_fire hquiet, hrise]
  have hrest := evalMarks_falling (t := { t with above := true }) he harm rfl hmid hw after
  calc evalMarks h t (low ++ u :: mid ++ w :: after)
      = evalMarks h t (low ++ u :: (mid ++ w :: after)) := by rw [List.append_assoc, List.cons_append]
    _ = List.replicate low.length false ++ false ::
          (List.replicate mid.length false ++ true :: List.replicate after.length false) := by
        rw [evalMarks_append_cons fun x hx => aboveNext_kept_low ha (hlow x hx), hquiet, hset, hrest]
    _ = List.replicate (low.length + 1 + mid.length) false ++ true :: List.replicate after.length false := by
        simp [List.replicate_add]

/-- A step that asserts `rst` resets (70_reset_and_hazards.md R155). -/
theorem step_atReset_of_rst {s t : State} (hs : step s = .next t) (hr : RstTurn s) : AtReset t := by
  obtain ⟨rest, hturns⟩ := List.head?_eq_some_iff.1 hr
  rw [step, turnStep, ← turns, hturns] at hs
  cases hs
  exact takeReset_atReset _

/-- Settles O47: a reset does not arm, and the other writers of `armed` are those of O14; after a fire the flag holds
the value that only the opposite crossing changes. -/
theorem noRefireUntilRearmedAndCrossedAgain : Obligations.NoRefireUntilRearmedAndCrossedAgain := by
  refine ⟨fun h t w hf => by rw [evalTrig_of_fire hf], fun h t ws ha => evalSeq_of_disarmed ws ha,
    fun s t hs h0 h1 => ?_, fun h t w ws hf he hws => ?_, fun h t w ws hf he hws => ?_⟩
  · have hr : ¬ RstTurn s := fun hr => by simp [(step_atReset_of_rst hs hr).armed] at h1
    obtain ⟨-, harm, -⟩ := flagsChangeOnlyByTheirWriters s t hs hr
    exact harm h0 h1
  · have hset : ({ evalTrig h t w with armed := true } : Trig).above = true := aboveNext_of_rising_fire hf he
    exact (evalSeq_of_above_kept fun x hx => aboveNext_kept_high hset (hws x hx)).2
  · have hclear : ({ evalTrig h t w with armed := true } : Trig).above = false := aboveNext_of_falling_fire hf he
    exact (evalSeq_of_above_kept fun x hx => aboveNext_kept_low hclear (hws x hx)).2

/-! ### Codes and voltages (R100) -/

theorem sint16_range (w : Word) : -32768 ≤ sint16 w ∧ sint16 w ≤ 32767 := by
  have hlo : -2 ^ 15 ≤ w.toInt := BitVec.le_toInt w
  have hhi : w.toInt < 2 ^ 15 := BitVec.toInt_lt
  rw [sint16_eq_toInt]
  omega

/-- An integer exceeds the floor of a rational exactly if it exceeds the rational: here the distance of two codes, and
the band in codes. -/
theorem volts_add_lt_iff {H : Rat} {h : Nat} (hh : (h : Int) = (H * (32768 / 10)).floor) (a b : Word) :
    volts a + H < volts b ↔ sint16 a + h < sint16 b := by
  have hscale : volts a + H < volts b ↔ H * (32768 / 10) < ((sint16 b - sint16 a : Int) : Rat) := by
    rw [volts, volts, fullScaleVolts]
    push_cast
    constructor <;> intro hlt <;> linarith
  rw [hscale, ← Rat.floor_lt_iff, ← hh, lt_sub_iff_add_lt']

/-- Settles O43: both comparisons are one distance of codes against the half-width. -/
theorem codeComparisonIsVoltageComparison : Obligations.CodeComparisonIsVoltageComparison := by
  refine ⟨fun w => ⟨sint16_eq_toInt w, sint16_range w⟩, fun h l => ⟨rfl, rfl⟩, fun H h l w _ hh => ⟨?_, ?_⟩⟩
  · exact (volts_add_lt_iff hh l w).symm
  · rw [loThreshold, lt_sub_iff_add_lt, lt_sub_iff_add_lt]
    exact (volts_add_lt_iff hh w l).symm

/-! ### The trigger-configuration commands (R101–R109) -/

section DecodeTrigger

variable {v : Byte}

theorem decodeTrigger_onOff (hv : subCommand v = 0#4) :
    decodeTrigger v = if payloadBit v then .trigon else .trigoff := by
  rw [decodeTrigger, hv]
  rfl

theorem decodeTrigger_trigch (hv : subCommand v = 1#4) : decodeTrigger v = .trigch (trigChan v) := by
  rw [decodeTrigger, hv]
  rfl

theorem decodeTrigger_lvlhi (hv : subCommand v = 2#4) : decodeTrigger v = .lvlhi (payload v) := by
  rw [decodeTrigger, hv]
  rfl

theorem decodeTrigger_lvllo (hv : subCommand v = 3#4) : decodeTrigger v = .lvllo (payload v) := by
  rw [decodeTrigger, hv]
  rfl

theorem decodeTrigger_edge (hv : subCommand v = 4#4) : decodeTrigger v = .edge (Edge.ofBit (payloadBit v)) := by
  rw [decodeTrigger, hv]
  rfl

theorem decodeTrigger_force (hv : subCommand v = 5#4) : decodeTrigger v = .force := by
  rw [decodeTrigger, hv]
  rfl

theorem decodeTrigger_reserved (hv : 6 ≤ (subCommand v).toNat) :
    decodeTrigger v = .trigrsv6_7 (subCommand v) ∨ decodeTrigger v = .trigrsv8_15 (subCommand v) := by
  obtain ⟨h0, -⟩ | ⟨h0, -⟩ | ⟨h1, -⟩ | ⟨h2, -⟩ | ⟨h3, -⟩ | ⟨h4, -⟩ | ⟨h5, -⟩ | ⟨-, -, h⟩ | ⟨-, h⟩ :=
    decodeTrigger_cases v
  iterate 7 omega
  · exact .inl h
  · exact .inr h

end DecodeTrigger

theorem drainCheckStep_drains {s : State} (ht : s.trig.triggered = true) (hc : 0 < s.count) :
    drainCheckStep s = .next { s with phase := .drain } := by
  simp [drainCheckStep, ht, hc]

/-- Settles O32: TRIGOFF leaves `triggered` and `count`, which DRAIN_CHECK reads, and clears `enabled`, which EVAL, PUSH
and the end of a drain read. -/
theorem trigonArmsAndTrigoffDisarms : Obligations.TrigonArmsAndTrigoffDisarms := by
  refine ⟨fun s => rfl, fun s => rfl, fun v hv => ⟨fun hb => ?_, fun hb => ?_⟩, fun s t he ht hc => ?_,
    fun s t he => ?_⟩
  · exact (decodeTrigger_onOff hv).trans (if_pos hb)
  · exact (decodeTrigger_onOff hv).trans (if_neg (Bool.eq_false_iff.1 hb))
  · cases he
    exact ⟨drainCheckStep_drains ht hc, rfl, rfl⟩
  · cases he
    exact ⟨fun c => rfl, fun e => rfl⟩

/-- Settles O33: both rows are the identity, and the decoder leaves them the sub-commands 6 to 15. -/
theorem reservedSubCommandsDoNothing : Obligations.ReservedSubCommandsDoNothing :=
  ⟨fun _ _ => ⟨rfl, rfl⟩, fun _ hv => decodeTrigger_reserved hv⟩

/-- Settles O34: TRIGCH's meaning and its row of the decoder. -/
theorem trigchSetsTheChannel : Obligations.TrigchSetsTheChannel :=
  ⟨fun _ _ => rfl, fun _ hv => decodeTrigger_trigch hv⟩

/-- The committed level read back: the stage, the operand, and a zero byte (30_encoding.md R66). -/
theorem levelOf_fields (stage n : Nibble) :
    (levelOf stage n).extractLsb' 12 4 = stage ∧ (levelOf stage n).extractLsb' 8 4 = n ∧
      (levelOf stage n).extractLsb' 0 8 = 0x00#8 :=
  ⟨(BitVec.extractLsb'_append_eq_of_le (by decide)).trans BitVec.extractLsb'_append_eq_left,
    (BitVec.extractLsb'_append_eq_of_le (by decide)).trans BitVec.extractLsb'_append_eq_right,
    BitVec.extractLsb'_append_eq_right⟩

/-- Settles O35: the level LVLLO commits is `levelOf` of the stage and n. -/
theorem lvlhiStagesAndLvlloCommits : Obligations.LvlhiStagesAndLvlloCommits :=
  ⟨fun _ _ => rfl, fun n s => ⟨levelOf s.trig.levelStage n, rfl, levelOf_fields s.trig.levelStage n⟩,
    fun _ hv => decodeTrigger_lvlhi hv, fun _ hv => decodeTrigger_lvllo hv⟩

/-- Settles O37: EDGE's meaning, and bit 4 of its row of the decoder. -/
theorem edgeSetsTheDirection : Obligations.EdgeSetsTheDirection := by
  refine ⟨fun _ _ => rfl, fun v hv => ⟨fun hb => ?_, fun hb => ?_⟩⟩
  · exact (decodeTrigger_edge hv).trans (congrArg Instr.edge (if_pos hb))
  · exact (decodeTrigger_edge hv).trans (congrArg Instr.edge (if_neg (Bool.eq_false_iff.1 hb)))

/-- Settles O38: FORCE's meaning and its row of the decoder. -/
theorem forceSetsTriggered : Obligations.ForceSetsTriggered :=
  ⟨fun _ => rfl, fun _ hv => decodeTrigger_force hv⟩

end Sys2Proof.Machine

/-! ## The ring buffer (43_ring_buffer.md R118–R125)

What PUSH and POP do to the list of unread entries is said once (`liveEntries_push`, `liveEntries_pop`). The FIFO law,
the bounded-drop law and the drain are inductions that cite it. -/

namespace Sys2Proof.Machine

section RingBuffer

variable {s t : State} {e : Sample}

/-! ### The indices (10_state.md R35–R37) -/

/-- What `Inv` says of the ring buffer's indices. PUSH and POP keep it in every phase, while `Inv` also asks for an
entry in DRAIN, which POP alone may take away. -/
structure RingOk (s : State) : Prop where
  tail_lt : s.tail < s.cfg.cap
  count_le : s.count ≤ s.cfg.cap
  head_eq : s.head = (s.tail + s.count) % s.cfg.cap

theorem Inv.ringOk (h : Inv s) : RingOk s := ⟨h.tail_lt, h.count_le, h.head_eq⟩

theorem RingOk.head_lt (h : RingOk s) : s.head < s.cfg.cap :=
  h.head_eq ▸ Nat.mod_lt _ (Nat.zero_lt_of_lt h.tail_lt)

/-- The slots from `tail` on are different slots up to CAP of them, so `head` is no live slot of a buffer with room. -/
theorem RingOk.liveIndex_ne_head (h : RingOk s) (hroom : s.count ≠ s.cfg.cap) {k : Nat} (hk : k < s.count) :
    liveIndex s k ≠ s.head := by
  have hcount := h.count_le
  intro heq
  have hmod : s.tail + k ≡ s.tail + s.count [MOD s.cfg.cap] := heq.trans h.head_eq
  have hkc : k = s.count := (hmod.add_left_cancel' _).eq_of_lt_of_lt (by omega) (by omega)
  omega

/-- Taking one entry off the front renumbers the live slots. -/
theorem mod_succ_add (a k c : Nat) : ((a + 1) % c + k) % c = (a + (k + 1)) % c := by
  rw [Nat.mod_add_mod, Nat.add_assoc, Nat.add_comm 1 k]

theorem RingOk.push (h : RingOk s) (hp : push e s = .next t) : RingOk t := by
  have hcount := h.count_le
  obtain ⟨-, rfl⟩ | ⟨hroom, -, rfl⟩ := push_cases hp
  · exact { h with }
  · refine ⟨h.tail_lt, Nat.lt_of_le_of_ne hcount hroom, ?_⟩
    show (s.head + 1) % s.cfg.cap = (s.tail + (s.count + 1)) % s.cfg.cap
    rw [h.head_eq, Nat.mod_add_mod, Nat.add_assoc]

theorem RingOk.pop (h : RingOk s) {p : Sample × State} (hp : pop s = .next p) : RingOk p.2 := by
  obtain ⟨hc, ht, rfl⟩ := pop_cases hp
  refine ⟨Nat.mod_lt _ (Nat.zero_lt_of_lt ht), (Nat.sub_le _ _).trans h.count_le, ?_⟩
  show s.head = ((s.tail + 1) % s.cfg.cap + (s.count - 1)) % s.cfg.cap
  rw [mod_succ_add, Nat.sub_add_cancel hc, h.head_eq]

/-! ### PUSH and POP on the unread entries (R118, R120, R122) -/

theorem push_full (hc : s.count = s.cfg.cap) :
    push e s = .next { s with dropCount := satSucc s.dropCount } := if_pos hc

theorem push_stores (hc : s.count ≠ s.cfg.cap) (hh : s.head < s.cfg.cap) :
    push e s = .next
      { s with
        buf := Memory.write s.buf s.head e, head := (s.head + 1) % s.cfg.cap, count := s.count + 1 } :=
  (if_neg hc).trans (if_neg (Nat.not_le_of_lt hh))

theorem push_cfg (hp : push e s = .next t) : t.cfg = s.cfg := by
  obtain ⟨-, rfl⟩ | ⟨-, -, rfl⟩ := push_cases hp <;> rfl

@[simp] theorem liveEntries_length (s : State) : (liveEntries s).length = s.count := by
  simp [liveEntries]

theorem liveEntries_of_count_eq_zero (hc : s.count = 0) : liveEntries s = [] :=
  List.eq_nil_of_length_eq_zero ((liveEntries_length s).trans hc)

/-- A dropped entry leaves the unread entries as they are; a stored one comes after them. -/
theorem liveEntries_push (h : RingOk s) (hp : push e s = .next t) :
    liveEntries t = if s.count = s.cfg.cap then liveEntries s else liveEntries s ++ [e] := by
  obtain ⟨hfull, rfl⟩ | ⟨hroom, -, rfl⟩ := push_cases hp
  · rw [if_pos hfull]
    rfl
  · have hnew : Memory.read s.resetEpoch (Memory.write s.buf s.head e) (liveIndex s s.count) = e := by
      rw [liveIndex, ← h.head_eq, read_write_same]
    have hold : ∀ k ∈ List.range s.count,
        Memory.read s.resetEpoch (Memory.write s.buf s.head e) (liveIndex s k) = readSlot s (liveIndex s k) :=
      fun k hk => read_write_other _ _ _ (h.liveIndex_ne_head hroom (List.mem_range.1 hk))
    rw [if_neg hroom]
    show (List.range (s.count + 1)).map
      (fun k => Memory.read s.resetEpoch (Memory.write s.buf s.head e) (liveIndex s k)) = liveEntries s ++ [e]
    rw [List.range_succ, List.map_append, List.map_congr_left hold, List.map_singleton, hnew]
    rfl

/-- POP takes the first of the unread entries. -/
theorem liveEntries_pop {p : Sample × State} (hp : pop s = .next p) : liveEntries s = p.1 :: liveEntries p.2 := by
  obtain ⟨hc, ht, rfl⟩ := pop_cases hp
  have hfirst : liveIndex s 0 = s.tail := Nat.mod_eq_of_lt ht
  show _ = readSlot s s.tail ::
    (List.range (s.count - 1)).map (fun k => readSlot s (((s.tail + 1) % s.cfg.cap + k) % s.cfg.cap))
  rw [liveEntries, ← Nat.sub_add_cancel hc, List.range_succ_eq_map, List.map_cons, hfirst, List.map_map]
  simp only [mod_succ_add]
  rfl

/-! ### Histories (R121) -/

/-- A history that begins with PUSH is that PUSH and the rest of it. -/
theorem bufRun_push_cases {ops : List BufOp} {stored popped : List Sample}
    (h : bufRun (.push e :: ops) s = .next (t, stored, popped)) :
    ∃ u later, push e s = .next u ∧ bufRun ops u = .next (t, later, popped) ∧
      stored = if s.count = s.cfg.cap then later else e :: later := by
  obtain ⟨u, hu, h⟩ := andThen_eq_next.1 h
  obtain ⟨⟨t', later, popped'⟩, hrest, h⟩ := andThen_eq_next.1 h
  cases h
  exact ⟨u, later, hu, hrest, rfl⟩

/-- A history that begins with POP is that POP and the rest of it. -/
theorem bufRun_pop_cases {ops : List BufOp} {stored popped : List Sample}
    (h : bufRun (.pop :: ops) s = .next (t, stored, popped)) :
    ∃ p later, pop s = .next p ∧ bufRun ops p.2 = .next (t, stored, later) ∧ popped = p.1 :: later := by
  obtain ⟨p, hp, h⟩ := andThen_eq_next.1 h
  obtain ⟨⟨t', stored', later⟩, hrest, h⟩ := andThen_eq_next.1 h
  cases h
  exact ⟨p, later, hp, hrest, rfl⟩

/-- The FIFO law from any state with legal indices, whatever the phase. -/
theorem RingOk.fifo (ops : List BufOp) {stored popped : List Sample} (h : RingOk s)
    (hrun : bufRun ops s = .next (t, stored, popped)) : popped ++ liveEntries t = liveEntries s ++ stored := by
  induction ops generalizing s stored popped with
  | nil =>
    cases hrun
    exact (List.append_nil _).symm
  | cons op ops ih =>
    cases op with
    | push e =>
      obtain ⟨u, later, hu, hrest, rfl⟩ := bufRun_push_cases hrun
      rw [ih (h.push hu) hrest, liveEntries_push h hu]
      split
      · rfl
      · simp
    | pop =>
      obtain ⟨p, later, hp, hrest, rfl⟩ := bufRun_pop_cases hrun
      rw [List.cons_append, ih (h.pop hp) hrest, liveEntries_pop hp, List.cons_append]

/-! ### Pushes without a POP (R123) -/

/-- A PUSH, full buffer or not, in one form: the unread entries with the new one behind them, cut at CAP, and one drop
counted if that cuts it off. -/
theorem RingOk.push_take (h : RingOk s) (e : Sample) :
    ∃ t, Machine.push e s = .next t ∧ liveEntries t = (liveEntries s ++ [e]).take s.cfg.cap ∧
      t.dropCount.toNat = min 0xFFFF (s.dropCount.toNat + (s.count + 1 - s.cfg.cap)) := by
  have hcount := h.count_le
  have hdrop := s.dropCount.isLt
  obtain ⟨t, hp⟩ := push_completes e h.head_lt
  refine ⟨t, hp, ?_, ?_⟩
  · rw [liveEntries_push h hp]
    split
    · rename_i hfull
      rw [← hfull, List.take_left' (liveEntries_length s)]
    · rename_i hroom
      rw [List.take_of_length_le (by simpa using Nat.lt_of_le_of_ne hcount hroom)]
  · obtain ⟨hfull, rfl⟩ | ⟨hroom, -, rfl⟩ := push_cases hp
    · simp [satSucc_toNat, hfull]
    · simp only
      omega

theorem take_take_append {α : Type} (n : Nat) (l m : List α) : (l.take n ++ m).take n = (l ++ m).take n := by
  rw [List.take_append, List.take_append, List.take_take, List.length_take, Nat.min_self]
  congr 2
  omega

/-- The bounded-drop law onto a buffer that may already hold entries. -/
theorem RingOk.pushAll_take (es : List Sample) (h : RingOk s) :
    ∃ t, pushAll es s = .next t ∧ liveEntries t = (liveEntries s ++ es).take s.cfg.cap ∧
      t.dropCount.toNat = min 0xFFFF (s.dropCount.toNat + (s.count + es.length - s.cfg.cap)) := by
  induction es generalizing s with
  | nil =>
    have hcount := h.count_le
    have hdrop := s.dropCount.isLt
    refine ⟨s, rfl, ?_, ?_⟩
    · simp [List.take_of_length_le, hcount]
    · simp only [List.length_nil]
      omega
  | cons e es ih =>
    obtain ⟨u, hu, hlive, hdrop⟩ := h.push_take e
    obtain ⟨t, ht, htlive, htdrop⟩ := ih (h.push hu)
    have hucount : u.count = min s.cfg.cap (s.count + 1) := by
      rw [← liveEntries_length u, hlive]
      simp
    refine ⟨t, ?_, ?_, ?_⟩
    · rw [pushAll, hu, andThen_next, ht]
    · rw [htlive, push_cfg hu, hlive, take_take_append, List.append_assoc, List.singleton_append]
    · rw [htdrop, push_cfg hu, hdrop, hucount, List.length_cons]
      omega

/-! ### When entries leave the buffer (R124) -/

theorem pushIfEnabled_count_le (h : pushIfEnabled e s = .next t) : s.count ≤ t.count := by
  unfold pushIfEnabled at h
  split at h
  · obtain ⟨-, rfl⟩ | ⟨-, -, rfl⟩ := push_cases h
    · exact Nat.le_refl _
    · exact Nat.le_succ _
  · cases h
    exact Nat.le_refl _

theorem pushIfEnabled_tail (h : pushIfEnabled e s = .next t) : t.tail = s.tail := by
  rw [pushIfEnabled_frame h]

/-- Outside DRAIN the block takes no entry out of the buffer. -/
theorem blockStep_keeps_entries (h : blockStep s = .next t) (hp : s.phase ≠ .drain) :
    t.tail = s.tail ∧ s.count ≤ t.count := by
  obtain ⟨-, h⟩ | ⟨-, h⟩ | ⟨-, h⟩ | ⟨-, h⟩ | ⟨hd, -⟩ | ⟨-, rfl⟩ := blockStep_cases h
  · rw [cmdStep_frame h]
    exact ⟨rfl, Nat.le_refl _⟩
  · obtain ⟨-, rfl⟩ | ⟨g, rest, -, rfl⟩ := waitSmpStep_cases h <;> exact ⟨rfl, Nat.le_refl _⟩
  · obtain ⟨-, rfl⟩ | ⟨-, -, rfl⟩ | ⟨-, -, u, hu, rfl⟩ := smpStep_cases h
    · simp
    · simp
    · have htail := pushIfEnabled_tail hu
      have hcount := pushIfEnabled_count_le hu
      exact ⟨by simpa using htail, by simpa using hcount⟩
  · obtain ⟨-, -, rfl⟩ | ⟨-, rfl⟩ := drainCheckStep_cases h <;> exact ⟨rfl, Nat.le_refl _⟩
  · exact absurd hd hp
  · exact ⟨rfl, Nat.le_refl _⟩

/-! ### The drain (R125) -/

theorem finishDrain_of_empty (hc : s.count = 0) :
    finishDrain s = { s with trig := endOfDrain s.trig, phase := .delay } := if_pos hc

theorem finishDrain_of_pos (hc : 0 < s.count) : finishDrain s = s := if_neg hc.ne'

/-- A DRAIN step leaves DRAIN only with the buffer empty. -/
theorem drainStep_phase (h : drainStep s = .next t) (hp : s.phase = .drain) :
    t.phase = .drain ∨ (t.phase = .delay ∧ t.count = 0) := by
  obtain ⟨-, -, ⟨-, rfl⟩ | ⟨-, rfl⟩⟩ := drainStep_cases h
  · exact .inl hp
  · unfold finishDrain
    split
    · rename_i hc
      exact .inr ⟨rfl, hc⟩
    · exact .inl (by simpa using hp)

/-- The state after a DRAIN step with room, before the end of the drain is looked at: the oldest entry moved to
`rsp_out` as its frame (44_acquisition_cycle.md R134). -/
def drainOne (s : State) : State :=
  { s with
    tail := (s.tail + 1) % s.cfg.cap, count := s.count - 1
    rspOut := s.rspOut ++ encodeFrame (readSlot s s.tail) }

theorem blockStep_drain_room (hp : s.phase = .drain) (hc : 0 < s.count) (ht : s.tail < s.cfg.cap)
    (hr : rspRoom s (frameLen (readSlot s s.tail).mark) = true) :
    blockStep s = .next (finishDrain (drainOne s)) := by
  rw [blockStep_of_drain hp, drainStep_room hc ht hr, exec_responseOf, andThen_next]
  exact congrArg (fun u => Host.Outcome.next (finishDrain u)) (emit_room hr)

/-- The frames waiting and to come are the same bytes before and after one entry is drained. -/
theorem drainOne_stream (hc : 0 < s.count) (ht : s.tail < s.cfg.cap) :
    (drainOne s).rspOut ++ framesOf (liveEntries (drainOne s)) = s.rspOut ++ framesOf (liveEntries s) := by
  rw [liveEntries_pop (pop_completes hc ht), framesOf, framesOf, List.flatMap_cons, ← List.append_assoc]
  rfl

/-- With an unbounded `rsp_out` a drain of n + 1 entries takes n + 1 steps of the block: the last one ends it, each
other leaves a drain of n entries. -/
theorem Inv.blockSteps_drain {n : Nat} (h : Inv s) (hp : s.phase = .drain) (hd : s.cfg.rspDepth = none)
    (hc : s.count = n + 1) :
    ∃ t, blockSteps (n + 1) s = .next t ∧ t.phase = .delay ∧ t.count = 0 ∧
      t.rspOut = s.rspOut ++ framesOf (liveEntries s) ∧ t.trig = endOfDrain s.trig := by
  induction n generalizing s with
  | zero =>
    have hstep := blockStep_drain_room hp (by omega) h.tail_lt (rspRoom_of_unbounded hd _)
    have hempty : (drainOne s).count = 0 := by simp [drainOne, hc]
    have hstream := drainOne_stream (s := s) (by omega) h.tail_lt
    rw [liveEntries_of_count_eq_zero hempty, framesOf, List.flatMap_nil, List.append_nil] at hstream
    rw [finishDrain_of_empty hempty] at hstep
    exact ⟨_, (blockSteps_one s).trans hstep, rfl, hempty, hstream, rfl⟩
  | succ n ih =>
    have hstep := blockStep_drain_room hp (by omega) h.tail_lt (rspRoom_of_unbounded hd _)
    have hleft : (drainOne s).count = n + 1 := by simp [drainOne, hc]
    rw [finishDrain_of_pos (by omega)] at hstep
    obtain ⟨t, ht, htphase, htcount, htout, httrig⟩ := ih (h.blockStep hstep) hp hd hleft
    exact ⟨t, (blockSteps_succ_of_next hstep).trans ht, htphase, htcount,
      htout.trans (drainOne_stream (by omega) h.tail_lt), httrig⟩

end RingBuffer

/-- Settles O15: a command writes the mask and the trigger fields only; of the turns but a reset only the block's can
move `tail` or take an entry, and outside DRAIN it does not. -/
theorem commandsKeepTheBuffer : Obligations.CommandsKeepTheBuffer := by
  refine ⟨fun i s hi => ?_, fun s t hs hleft => ?_⟩
  · obtain ⟨t, he⟩ := exec_completes i s
    have hframe := exec_command_cases hi he
    exact ⟨t, he, by rw [hframe], by rw [hframe], by rw [hframe], by rw [hframe], exec_command_readSlot hi he⟩
  · refine or_iff_not_imp_left.2 fun hr => ?_
    obtain ⟨hturn, rest, hb⟩ | ⟨rest, rfl⟩ | ⟨rest, rfl⟩ | ⟨rest, rfl⟩ := step_cases_of_not_rst hs hr
    · refine ⟨hturn, by_contra fun hp => ?_⟩
      obtain ⟨htail, hcount⟩ := blockStep_keeps_entries hb hp
      exact hleft.elim (Nat.not_lt_of_le hcount) fun hne => hne htail
    · simp at hleft
    · simp at hleft
    · simp at hleft

/-- Settles O48: the two branches of PUSH, and what the storage reads after the write. -/
theorem pushStoresOrCountsTheDrop : Obligations.PushStoresOrCountsTheDrop := by
  refine fun e s => ⟨fun hc => ?_, fun hc hh =>
    ⟨_, push_stores hc hh, read_write_same _ _ _ _, fun k hk => read_write_other _ _ _ hk⟩⟩
  rw [push_full hc, satSucc]
  split
  · rename_i hmax
    rw [hmax]
  · rfl

/-- Settles O49: POP completes on a non-empty buffer. -/
theorem popReturnsTheOldestEntry : Obligations.PopReturnsTheOldestEntry :=
  fun _ hc ht => pop_completes hc ht

/-- Settles O50: a sound state has legal indices, and the law needs no more of it. -/
theorem ringBufferIsFifo : Obligations.RingBufferIsFifo :=
  fun ops _ _ _ _ h hrun => h.ringOk.fifo ops hrun

/-- Settles O51: the bounded-drop law with nothing unread at the start. -/
theorem pushesKeepTheFirstEntries : Obligations.PushesKeepTheFirstEntries := by
  intro es s h hc
  obtain ⟨t, ht, hlive, hdrop⟩ := h.ringOk.pushAll_take es
  rw [liveEntries_of_count_eq_zero hc, List.nil_append] at hlive
  rw [hc, Nat.zero_add] at hdrop
  refine ⟨t, ht, hlive, ?_, hdrop⟩
  rw [← liveEntries_length t, hlive, List.length_take, Nat.min_comm]

/-- Settles O58: of the turns but a reset only the block's writes the phase; and a drain of an unbounded queue runs
through its entries, of which a sound state in DRAIN has one. -/
theorem drainRunsToCompletion : Obligations.DrainRunsToCompletion := by
  refine ⟨fun s t hs hr hp => ?_, fun s h hp hd => ?_⟩
  · obtain ⟨-, rest, hb⟩ | ⟨rest, rfl⟩ | ⟨rest, rfl⟩ | ⟨rest, rfl⟩ := step_cases_of_not_rst hs hr
    · rw [blockStep_of_drain (s := { s with sched := rest }) hp] at hb
      exact drainStep_phase hb hp
    · exact .inl (by simpa using hp)
    · exact .inl (by simpa using hp)
    · exact .inl (by simpa using hp)
  · obtain ⟨n, hn⟩ := Nat.exists_eq_succ_of_ne_zero (h.drain_count hp).ne'
    rw [hn]
    exact h.blockSteps_drain hp hd hn

end Sys2Proof.Machine

/-! ## The acquisition cycle (44_acquisition_cycle.md R126–R140)

What the step of each phase answers, as an equation per case; then which fields a step leaves alone; then the block
alone through one command phase and through one cycle. -/

namespace Sys2Proof.Machine

section PhaseSteps

variable {s t u : State} {e : Sample}

/-! ### WAIT_SMP, DRAIN_CHECK and DELAY (R128, R133, R137) -/

theorem blockStep_of_waitSmp (hp : s.phase = .waitSmp) : blockStep s = waitSmpStep s := by
  rw [blockStep, hp]

theorem blockStep_of_smp (hp : s.phase = .smp) : blockStep s = smpStep s := by
  rw [blockStep, hp]

theorem blockStep_of_drainCheck (hp : s.phase = .drainCheck) : blockStep s = drainCheckStep s := by
  rw [blockStep, hp]

theorem blockStep_of_delay (hp : s.phase = .delay) : blockStep s = .next { s with phase := .cmd } := by
  rw [blockStep, hp]
  rfl

theorem waitSmpStep_nil (hg : s.smpIn = []) : waitSmpStep s = .next s := by
  rw [waitSmpStep, hg]

theorem waitSmpStep_cons {g : Group} {rest : List Group} (hg : s.smpIn = g :: rest) :
    waitSmpStep s = .next { s with smpIn := rest, grp := g, sidx := 0#2, phase := .smp } := by
  rw [waitSmpStep, hg]

theorem drainCheckStep_skips (h : s.trig.triggered = false ∨ s.count = 0) :
    drainCheckStep s = .next { s with phase := .delay } := by
  obtain h | h := h <;> simp [drainCheckStep, h]

/-! ### The next channel (R129) -/

theorem advanceSidx_eq (s : State) :
    advanceSidx s =
      { s with sidx := s.sidx + 1#2, phase := if s.sidx = 3#2 then .drainCheck else s.phase } := by
  unfold advanceSidx
  split
  · rename_i h
    simp [h]
  · rfl

theorem chan_add_one_ne (c : Chan) : c + 1#2 ≠ c := by
  revert c
  decide

theorem chan_add_one_toNat {c : Chan} (h : c ≠ 3#2) : (c + 1#2).toNat = c.toNat + 1 := by
  revert c
  decide

theorem advanceSidx_ne_of_sidx_eq (h : t.sidx = s.sidx) : advanceSidx t ≠ s := by
  intro heq
  have hsidx : t.sidx + 1#2 = s.sidx := by rw [← heq, advanceSidx_eq]
  exact chan_add_one_ne s.sidx (h ▸ hsidx)

/-- Within SMP the channels come in ascending order, and channel 3 is the last. -/
theorem advanceSidx_order (hp : s.phase = .smp) :
    (s.sidx ≠ 3#2 ∧ (advanceSidx s).phase = .smp ∧ (advanceSidx s).sidx.toNat = s.sidx.toNat + 1) ∨
    (s.sidx = 3#2 ∧ (advanceSidx s).phase = .drainCheck ∧ (advanceSidx s).sidx = 0#2) := by
  rw [advanceSidx_eq]
  by_cases h : s.sidx = 3#2
  · exact .inr ⟨h, if_pos h, by simp [h]⟩
  · exact .inl ⟨h, (if_neg h).trans hp, chan_add_one_toNat h⟩

/-! ### The SMP step (R129, R130) -/

/-- The sample the SMP step takes if the channel is enabled. -/
abbrev smpSample (s : State) : Sample := sampleOf s s.sidx (groupWord s.grp s.sidx)

/-- The state with the flags EVAL leaves, onto whose buffer the SMP step pushes. -/
abbrev smpEvaluated (s : State) : State :=
  { s with trig := sampleTrig s.cfg.hystCode s.trig s.sidx (groupWord s.grp s.sidx) }

theorem smpStep_disabled (hm : maskBit s.mask s.sidx = false) : smpStep s = .next (advanceSidx s) := by
  simp [smpStep, hm]

theorem smpStep_hold (hm : maskBit s.mask s.sidx = true)
    (hr : rspRoom s (frameLen (smpSample s).mark) = false) : smpStep s = .next s := by
  simp [smpStep, hm, hr]

/-- PUSH takes no room from `rsp_out`. -/
theorem emit_after_pushIfEnabled (hu : pushIfEnabled e s = .next u) (hr : rspRoom s (frameLen e.mark) = true) :
    emit e u = { u with rspOut := s.rspOut ++ encodeFrame e } := by
  have hframe := pushIfEnabled_frame hu
  have hroom : rspRoom u (frameLen e.mark) = true := by
    rw [hframe]
    exact hr
  rw [emit_room hroom, pushIfEnabled_rspOut hu]

theorem smpStep_room (hm : maskBit s.mask s.sidx = true)
    (hr : rspRoom s (frameLen (smpSample s).mark) = true) :
    smpStep s = andThen (pushIfEnabled (smpSample s) (smpEvaluated s)) fun u =>
      .next (advanceSidx { u with rspOut := s.rspOut ++ encodeFrame (smpSample s) }) := by
  have hemit : smpStep s = andThen (pushIfEnabled (smpSample s) (smpEvaluated s)) fun u =>
      .next (advanceSidx (emit (smpSample s) u)) := by
    simp [smpStep, hm, hr, sample, andThen_assoc]
  rw [hemit]
  cases hu : pushIfEnabled (smpSample s) (smpEvaluated s) with
  | next u => rw [andThen_next, andThen_next, emit_after_pushIfEnabled hu hr]
  | fault r => rfl
  | refused r => rfl

theorem pushIfEnabled_of_enabled (h : s.trig.enabled = true) : pushIfEnabled e s = push e s := if_pos h

theorem pushIfEnabled_of_disabled (h : s.trig.enabled = false) : pushIfEnabled e s = .next s := by
  simp [pushIfEnabled, h]

/-- PUSH does not look at the latched group. -/
theorem pushIfEnabled_setGrp (e : Sample) (s : State) (g : Group) :
    pushIfEnabled e { s with grp := g } = andThen (pushIfEnabled e s) fun u => .next { u with grp := g } := by
  cases hon : s.trig.enabled with
  | false =>
    rw [pushIfEnabled_of_disabled hon, pushIfEnabled_of_disabled (s := { s with grp := g }) hon, andThen_next]
  | true =>
    rw [pushIfEnabled_of_enabled hon, pushIfEnabled_of_enabled (s := { s with grp := g }) hon]
    unfold push
    split
    · rfl
    · split <;> rfl

/-- Where EVAL is called, it gives the marker and the flags (42_trigger_engine.md R110, R115). -/
theorem sample_of_evaluates {hyst : Nat} {tr : Trig} {c : Chan} {w : Word}
    (h : tr.enabled = true ∧ c = tr.channel) :
    sampleMark hyst tr c w = evalFires hyst tr w ∧ sampleTrig hyst tr c w = evalTrig hyst tr w := by
  simp [sampleMark, sampleTrig, evaluates, h]

theorem sample_of_not_evaluates {hyst : Nat} {tr : Trig} {c : Chan} {w : Word}
    (h : ¬ (tr.enabled = true ∧ c = tr.channel)) :
    sampleMark hyst tr c w = false ∧ sampleTrig hyst tr c w = tr := by
  have he : evaluates tr c = false := by simpa [evaluates] using h
  simp [sampleMark, sampleTrig, he]

/-! ### The DRAIN step without room (R134) -/

theorem blockStep_drain_hold (hp : s.phase = .drain) (hc : 0 < s.count) (ht : s.tail < s.cfg.cap)
    (hr : rspRoom s (frameLen (readSlot s s.tail).mark) = false) : blockStep s = .next s := by
  rw [blockStep_of_drain hp]
  simp [drainStep, pop_completes hc ht, hr]

/-! ### What a step leaves alone outside its phase (R139) -/

theorem smpStep_frame (h : smpStep s = .next t) :
    t = { s with
      phase := t.phase, sidx := t.sidx, trig := t.trig, buf := t.buf, head := t.head, count := t.count
      dropCount := t.dropCount, rspOut := t.rspOut } := by
  cases hm : maskBit s.mask s.sidx with
  | false =>
    rw [smpStep_disabled hm, advanceSidx_eq] at h
    cases h
    rfl
  | true =>
    cases hr : rspRoom s (frameLen (smpSample s).mark) with
    | false =>
      rw [smpStep_hold hm hr] at h
      cases h
      rfl
    | true =>
      rw [smpStep_room hm hr] at h
      obtain ⟨u, hu, h⟩ := andThen_eq_next.1 h
      rw [pushIfEnabled_frame hu, advanceSidx_eq] at h
      cases h
      rfl

/-- Outside CMD the block leaves the command bytes and the decoder alone (R139). -/
theorem blockStep_decoder (h : blockStep s = .next t) (hp : s.phase ≠ .cmd) :
    t.cmdIn = s.cmdIn ∧ t.dstate = s.dstate ∧ t.dcmd = s.dcmd := by
  obtain ⟨hcmd, -⟩ | ⟨-, h⟩ | ⟨-, h⟩ | ⟨-, h⟩ | ⟨-, h⟩ | ⟨-, rfl⟩ := blockStep_cases h
  · exact absurd hcmd hp
  · obtain ⟨-, rfl⟩ | ⟨g, rest, -, rfl⟩ := waitSmpStep_cases h <;> simp
  · rw [smpStep_frame h]
    simp
  · obtain ⟨-, -, rfl⟩ | ⟨-, rfl⟩ := drainCheckStep_cases h <;> simp
  · obtain ⟨-, -, ⟨-, rfl⟩ | ⟨-, rfl⟩⟩ := drainStep_cases h <;> simp
  · simp

/-- Outside WAIT_SMP the block leaves the sample port and the latched group alone (10_state.md R43). -/
theorem blockStep_port (h : blockStep s = .next t) (hp : s.phase ≠ .waitSmp) :
    t.smpIn = s.smpIn ∧ t.grp = s.grp := by
  obtain ⟨-, h⟩ | ⟨hwait, -⟩ | ⟨-, h⟩ | ⟨-, h⟩ | ⟨-, h⟩ | ⟨-, rfl⟩ := blockStep_cases h
  · rw [cmdStep_frame h]
    simp
  · exact absurd hwait hp
  · rw [smpStep_frame h]
    simp
  · obtain ⟨-, -, rfl⟩ | ⟨-, rfl⟩ := drainCheckStep_cases h <;> simp
  · obtain ⟨-, -, ⟨-, rfl⟩ | ⟨-, rfl⟩⟩ := drainStep_cases h <;> simp
  · simp

/-! ### The command phase (R127) -/

/-- In CMD a waiting byte is taken in one step, whatever the decoder makes of it, and the block stays in CMD. -/
theorem blockStep_takes_cmd_byte (hp : s.phase = .cmd) {b : Byte} {rest : List Byte} (hc : s.cmdIn = b :: rest) :
    ∃ t, blockStep s = .next t ∧ t.phase = .cmd ∧ t.cmdIn = rest := by
  cases hd : s.dstate with
  | idle =>
    by_cases hb : b = 0xAA#8
    · subst hb
      exact ⟨_, blockStep_start hp hd hc, hp, rfl⟩
    · exact ⟨_, blockStep_stray hp hd hb hc, hp, rfl⟩
  | gotStart => exact ⟨_, blockStep_command hp hd hc, hp, rfl⟩
  | gotCmd =>
    obtain ⟨t, ht⟩ := exec_completes (decodeCommand s.dcmd b) { s with cmdIn := rest, dstate := .idle }
    have hframe := exec_command_cases (decodeCommand_isCommand _ _) ht
    refine ⟨t, (blockStep_value hp hd hc).trans ht, ?_, ?_⟩ <;> rw [hframe]
    exact hp

theorem blockSteps_empty_cmdIn {bytes : List Byte} (hp : s.phase = .cmd) (hc : s.cmdIn = bytes) :
    ∃ t, blockSteps bytes.length s = .next t ∧ t.phase = .cmd ∧ t.cmdIn = [] := by
  induction bytes generalizing s with
  | nil => exact ⟨s, rfl, hp, hc⟩
  | cons b rest ih =>
    obtain ⟨u, hu, hup, huc⟩ := blockStep_takes_cmd_byte hp hc
    obtain ⟨t, ht, htp, htc⟩ := ih hup huc
    exact ⟨t, (blockSteps_succ_of_next hu).trans ht, htp, htc⟩

/-! ### Where a step changes nothing (R138) -/

theorem blockStep_moves_in_cmd (hp : s.phase = .cmd) : blockStep s ≠ .next s := by
  intro h
  cases hc : s.cmdIn with
  | nil =>
    rw [blockStep_of_cmd hp, cmdStep_nil hc] at h
    have hphase := congrArg State.phase (Host.Outcome.next.inj h)
    simp [hp] at hphase
  | cons b rest =>
    obtain ⟨t, ht, -, htc⟩ := blockStep_takes_cmd_byte hp hc
    obtain rfl : s = t := Host.Outcome.next.inj (h.symm.trans ht)
    simp [hc] at htc

/-- A step that moves on to another phase changes the state. -/
theorem setPhase_ne {p : Phase} (hp : s.phase ≠ p) : s ≠ { s with phase := p } :=
  fun h => hp (congrArg State.phase h)

theorem finishDrain_emit_popped_ne (hc : 0 < s.count) (n : Nat) :
    s ≠ finishDrain (emit e { s with tail := n, count := s.count - 1 }) := by
  intro h
  have hcount := congrArg State.count h
  simp only [finishDrain_count, emit_count] at hcount
  omega

end PhaseSteps

/-- Settles O56: the equations of the three steps. -/
theorem waitSmpDrainCheckAndDelaySteps : Obligations.WaitSmpDrainCheckAndDelaySteps :=
  ⟨fun _ hp _ _ hg => (blockStep_of_waitSmp hp).trans (waitSmpStep_cons hg),
    fun _ hp => ⟨fun ht hc => (blockStep_of_drainCheck hp).trans (drainCheckStep_drains ht hc),
      fun h => (blockStep_of_drainCheck hp).trans (drainCheckStep_skips h)⟩,
    fun _ hp => blockStep_of_delay hp⟩

/-- Settles O57: with room the entry moves to `rsp_out` (`drainOne`), and the drain ends if none is left. -/
theorem drainStepEmitsTheOldestEntry : Obligations.DrainStepEmitsTheOldestEntry := by
  intro s hp hc ht
  refine ⟨blockStep_drain_hold hp hc ht, fun hr => ⟨fun hmore => ?_, fun hlast => ?_⟩⟩
  · have hleft : 0 < (drainOne s).count := Nat.sub_pos_of_lt hmore
    rw [blockStep_drain_room hp hc ht hr, finishDrain_of_pos hleft]
    rfl
  · have hempty : (drainOne s).count = 0 := by simp [drainOne, hlast]
    rw [blockStep_drain_room hp hc ht hr, finishDrain_of_empty hempty]
    simp [drainOne, endOfDrain, hlast]

/-- Settles O7: what each phase's step can do, phase by phase. -/
theorem phasesFollowTheCycle : Obligations.PhasesFollowTheCycle := by
  intro s t h
  refine ⟨fun hp => ?_, fun hp => ?_, fun hp => ?_, fun hp => ?_, fun hp => ?_, fun hp => ?_⟩
  · cases hc : s.cmdIn with
    | nil =>
      rw [blockStep_of_cmd hp, cmdStep_nil hc] at h
      cases h
      exact .inr rfl
    | cons b rest =>
      obtain ⟨u, hu, hup, -⟩ := blockStep_takes_cmd_byte hp hc
      obtain rfl : t = u := Host.Outcome.next.inj (h.symm.trans hu)
      exact .inl hup
  · rw [blockStep_of_waitSmp hp] at h
    obtain ⟨-, rfl⟩ | ⟨g, rest, -, rfl⟩ := waitSmpStep_cases h
    · exact .inl rfl
    · exact .inr ⟨rfl, rfl⟩
  · rw [blockStep_of_smp hp] at h
    obtain ⟨-, rfl⟩ | ⟨-, -, rfl⟩ | ⟨-, -, u, hu, rfl⟩ := smpStep_cases h
    · exact .inr (advanceSidx_order hp)
    · exact .inl rfl
    · have hframe := pushIfEnabled_frame hu
      have hsidx : u.sidx = s.sidx := by rw [hframe]
      have hphase : u.phase = .smp := by rw [hframe]; exact hp
      have horder := advanceSidx_order (s := emit (smpSample s) u) (by simpa using hphase)
      rw [emit_sidx, hsidx] at horder
      exact .inr horder
  · rw [blockStep_of_drainCheck hp] at h
    obtain ⟨-, -, rfl⟩ | ⟨-, rfl⟩ := drainCheckStep_cases h
    · exact .inl rfl
    · exact .inr rfl
  · rw [blockStep_of_drain hp] at h
    exact (drainStep_phase h hp).imp_right And.left
  · rw [blockStep_of_delay hp] at h
    cases h
    rfl

/-- Settles O8: each phase's step either is one of the named holds or changes the phase, `sidx`, `count` or `cmd_in`. -/
theorem blockIsStuckExactlyWhereItHolds : Obligations.BlockIsStuckExactlyWhereItHolds := by
  intro s hinv
  constructor
  · intro h
    obtain ⟨hp, -⟩ | ⟨hp, h⟩ | ⟨hp, h⟩ | ⟨hp, h⟩ | ⟨hp, h⟩ | ⟨hp, hs⟩ := blockStep_cases h
    · exact absurd h (blockStep_moves_in_cmd hp)
    · obtain ⟨hg, -⟩ | ⟨g, rest, -, hs⟩ := waitSmpStep_cases h
      · exact .inl ⟨hp, hg⟩
      · have hphase := congrArg State.phase hs
        simp [hp] at hphase
    · obtain ⟨-, hs⟩ | ⟨hm, hr, -⟩ | ⟨-, -, u, hu, hs⟩ := smpStep_cases h
      · exact absurd hs.symm (advanceSidx_ne_of_sidx_eq rfl)
      · exact .inr (.inl ⟨hp, hm, hr⟩)
      · have hsidx : u.sidx = s.sidx := by rw [pushIfEnabled_frame hu]
        exact absurd hs.symm (advanceSidx_ne_of_sidx_eq ((emit_sidx _ _).trans hsidx))
    · obtain ⟨-, -, hs⟩ | ⟨-, hs⟩ := drainCheckStep_cases h
      · exact absurd hs (setPhase_ne (by simp [hp]))
      · exact absurd hs (setPhase_ne (by simp [hp]))
    · obtain ⟨hc, -, ⟨hr, -⟩ | ⟨-, hs⟩⟩ := drainStep_cases h
      · exact .inr (.inr ⟨hp, hr⟩)
      · exact absurd hs (finishDrain_emit_popped_ne hc _)
    · exact absurd hs (setPhase_ne (by simp [hp]))
  · rintro (⟨hp, hg⟩ | ⟨hp, hm, hr⟩ | ⟨hp, hr⟩)
    · exact (blockStep_of_waitSmp hp).trans (waitSmpStep_nil hg)
    · exact (blockStep_of_smp hp).trans (smpStep_hold hm hr)
    · exact blockStep_drain_hold hp (hinv.drain_count hp) hinv.tail_lt hr

/-- Settles O12: the block takes command bytes in CMD and groups in WAIT_SMP only; the other agents append. -/
theorem commandsWaitOutsideTheCmdPhase : Obligations.CommandsWaitOutsideTheCmdPhase := by
  intro s t h hr
  obtain ⟨-, rest, hb⟩ | ⟨rest, rfl⟩ | ⟨rest, rfl⟩ | ⟨rest, rfl⟩ := step_cases_of_not_rst h hr
  · refine ⟨fun hp => ?_, fun hp => ?_⟩
    · obtain ⟨hcmd, hdecoder⟩ := blockStep_decoder hb hp
      exact ⟨hcmd ▸ List.prefix_rfl, hdecoder⟩
    · obtain ⟨hport, hgrp⟩ := blockStep_port hb hp
      exact ⟨hport ▸ List.prefix_rfl, hgrp⟩
  · have happend := (hostSend_frame { s with sched := rest }).2
    simpa using fun _ => happend
  · simp
  · have happend := (converterOffer_frame { s with sched := rest }).2
    simpa using fun _ => happend

/-- Settles O28, by the induction on the waiting bytes; then the CMD step finds `cmd_in` empty. -/
theorem commandPhaseEndsWhenTheQueueIsEmpty : Obligations.CommandPhaseEndsWhenTheQueueIsEmpty := by
  intro s hp
  obtain ⟨t, ht, htp, htc⟩ := blockSteps_empty_cmdIn hp rfl
  refine ⟨t, ht, htp, htc, ?_⟩
  rw [blockSteps_add, ht, andThen_next, blockSteps_one, blockStep_of_cmd htp, cmdStep_nil htc]

/-- Settles O52: the marker and the flags given are the ones SAMPLE computes, and the three equations of the SMP step
say the rest. -/
theorem sampleStepDoesEvalPushEmit : Obligations.SampleStepDoesEvalPushEmit := by
  intro s hinv hp
  rw [blockStep_of_smp hp]
  refine ⟨smpStep_disabled, ?_⟩
  rintro hm w mk trig rfl heval hskip
  obtain ⟨rfl, rfl⟩ : mk = sampleMark s.cfg.hystCode s.trig s.sidx (groupWord s.grp s.sidx) ∧
      trig = sampleTrig s.cfg.hystCode s.trig s.sidx (groupWord s.grp s.sidx) := by
    by_cases h : s.trig.enabled = true ∧ s.sidx = s.trig.channel
    · rw [(sample_of_evaluates h).1, (sample_of_evaluates h).2]
      exact heval h
    · rw [(sample_of_not_evaluates h).1, (sample_of_not_evaluates h).2]
      exact hskip h
  refine ⟨smpStep_hold hm, fun hr => ⟨fun hoff => ?_, fun hon => ?_⟩⟩
  · have hkeep := (hskip (by simp [hoff])).2
    rw [smpStep_room hm hr, smpEvaluated, hkeep, pushIfEnabled_of_disabled hoff, andThen_next]
    rfl
  · obtain ⟨u, hu⟩ := push_completes (smpSample s) (s := smpEvaluated s) hinv.head_lt
    refine ⟨u, hu, ?_⟩
    rw [smpStep_room hm hr, pushIfEnabled_of_enabled (by simpa using hon), hu, andThen_next]
    rfl

end Sys2Proof.Machine

/-! ### Live emission and the channels left out (R130, R132) -/

namespace Sys2Proof.Machine

section Emission

variable {s : State}

/-- PUSH where the trigger is enabled, in one form: the unread entries with the new one behind them, cut at CAP. -/
theorem RingOk.pushIfEnabled_take (h : RingOk s) (e : Sample) :
    ∃ u, pushIfEnabled e s = .next u ∧
      liveEntries u = (liveEntries s ++ if s.trig.enabled then [e] else []).take s.cfg.cap := by
  cases hon : s.trig.enabled with
  | false =>
    have hcount := h.count_le
    exact ⟨s, pushIfEnabled_of_disabled hon, by simp [List.take_of_length_le, hcount]⟩
  | true =>
    obtain ⟨u, hu, hlive, -⟩ := h.push_take e
    exact ⟨u, (pushIfEnabled_of_enabled hon).trans hu, by simpa using hlive⟩

/-- The SMP step of an enabled channel with room, in a sound state, completes. -/
theorem smpStep_emits (h : Inv s) (hm : maskBit s.mask s.sidx = true)
    (hr : rspRoom s (frameLen (smpSample s).mark) = true) :
    ∃ u, pushIfEnabled (smpSample s) (smpEvaluated s) = .next u ∧
      liveEntries u = (liveEntries s ++ if s.trig.enabled then [smpSample s] else []).take s.cfg.cap ∧
      smpStep s =
        .next (advanceSidx { u with rspOut := s.rspOut ++ encodeFrame (smpSample s) }) := by
  have hring : RingOk (smpEvaluated s) := ⟨h.tail_lt, h.count_le, h.head_eq⟩
  obtain ⟨u, hu, hlive⟩ := hring.pushIfEnabled_take (smpSample s)
  rw [sampleTrig_enabled] at hlive
  exact ⟨u, hu, hlive, by rw [smpStep_room hm hr, hu, andThen_next]⟩

/-- No frame is longer than 6 bytes (30_encoding.md R75). -/
theorem rspRoom_frameLen (h : rspRoom s 6 = true) (mk : Bool) : rspRoom s (frameLen mk) = true := by
  cases hd : s.cfg.rspDepth with
  | none => exact rspRoom_of_unbounded hd _
  | some d =>
    rw [rspRoom_iff_of_depth hd] at h ⊢
    have hlen : frameLen mk ≤ 6 := by cases mk <;> decide
    omega

theorem advanceSidx_setGrp (s : State) (g : Group) :
    advanceSidx { s with grp := g } = { advanceSidx s with grp := g } := by
  rw [advanceSidx_eq, advanceSidx_eq]

end Emission

/-- Settles O53: in a sound state PUSH completes, and EMIT appends the frame whatever PUSH did. -/
theorem liveTransmissionIsUnconditional : Obligations.LiveTransmissionIsUnconditional := by
  intro s h hp hm hr
  obtain ⟨u, -, -, hstep⟩ := smpStep_emits h hm (rspRoom_frameLen hr _)
  exact ⟨_, _, (blockStep_of_smp hp).trans hstep, advanceSidx_rspOut _⟩

/-- Settles O54: a disabled channel's step reads no word, and an enabled one's reads its own, which is the same in both
groups. -/
theorem wordsOfDisabledChannelsLeaveNoTrace : Obligations.WordsOfDisabledChannelsLeaveNoTrace := by
  intro s g hp hg
  rw [blockStep_of_smp hp, blockStep_of_smp (s := { s with grp := g }) hp]
  cases hm : maskBit s.mask s.sidx with
  | false =>
    rw [smpStep_disabled hm, smpStep_disabled (s := { s with grp := g }) hm, andThen_next, advanceSidx_setGrp]
  | true =>
    have hsample : smpSample { s with grp := g } = smpSample s := congrArg (sampleOf s s.sidx) (hg _ hm)
    have heval : smpEvaluated { s with grp := g } = { smpEvaluated s with grp := g } := by
      simp only [smpEvaluated, hg _ hm]
    have hroom : rspRoom { s with grp := g } (frameLen (smpSample { s with grp := g }).mark) =
        rspRoom s (frameLen (smpSample s).mark) := by
      rw [hsample]
      rfl
    cases hr : rspRoom s (frameLen (smpSample s).mark) with
    | false =>
      rw [smpStep_hold hm hr, smpStep_hold (s := { s with grp := g }) hm (hroom.trans hr), andThen_next]
    | true =>
      rw [smpStep_room hm hr, smpStep_room (s := { s with grp := g }) hm (hroom.trans hr), hsample, heval,
        pushIfEnabled_setGrp, andThen_assoc, andThen_assoc]
      simp only [andThen_next, ← advanceSidx_setGrp]

/-! ### The output of one cycle (R140) -/

section OneCycle

variable {s t u : State}

/-- The samples of those of the given channels that are enabled; of all channels, they are `cycleSamples`. -/
def samplesOf (s : State) (cs : List Chan) : List Sample :=
  (cs.filter (fun c => maskBit s.mask c)).map (fun c => sampleOf s c (groupWord s.grp c))

theorem samplesOf_channels (s : State) : samplesOf s channels = cycleSamples s := rfl

theorem samplesOf_cons (s : State) (c : Chan) (cs : List Chan) :
    samplesOf s (c :: cs) = samplesOf s [c] ++ samplesOf s cs := by
  rw [samplesOf, ← List.singleton_append, List.filter_append, List.map_append]
  rfl

/-- From s to t exactly the given samples were taken: their frames appended, and the samples pushed where the trigger is
enabled. -/
structure Took (es : List Sample) (s t : State) : Prop where
  cfg : t.cfg = s.cfg
  enabled : t.trig.enabled = s.trig.enabled
  rspOut : t.rspOut = s.rspOut ++ framesOf es
  live : liveEntries t = (liveEntries s ++ if s.trig.enabled then es else []).take s.cfg.cap

theorem Took.nil (h : Inv s) : Took [] s s := by
  have hcount := h.count_le
  exact ⟨rfl, rfl, by simp [framesOf], by simp [List.take_of_length_le, hcount]⟩

theorem Took.trans {es fs : List Sample} (h : Took es s t) (k : Took fs t u) : Took (es ++ fs) s u := by
  refine ⟨k.cfg.trans h.cfg, k.enabled.trans h.enabled, ?_, ?_⟩
  · rw [k.rspOut, h.rspOut, framesOf, framesOf, framesOf, List.flatMap_append, List.append_assoc]
  · rw [k.live, h.live, h.cfg, h.enabled, take_take_append]
    cases s.trig.enabled <;> simp

theorem Took.advanceSidx {es : List Sample} (h : Took es s t) : Took es s (advanceSidx t) := by
  rw [advanceSidx_eq]
  exact ⟨h.cfg, h.enabled, h.rspOut, h.live⟩

/-- EVAL of one channel's word leaves every other channel's marker as it was: at most one channel is watched. -/
theorem sampleMark_sampleTrig_other (hyst : Nat) (tr : Trig) {c d : Chan} (v w : Word) (h : d ≠ c) :
    sampleMark hyst (sampleTrig hyst tr c v) d w = sampleMark hyst tr d w := by
  by_cases he : tr.enabled = true ∧ c = tr.channel
  · have hd : ¬ (tr.enabled = true ∧ d = tr.channel) := fun hd => h (hd.2.trans he.2.symm)
    rw [(sample_of_evaluates he).2, (sample_of_not_evaluates hd).1]
    exact (sample_of_not_evaluates (tr := evalTrig hyst tr v) hd).1
  · rw [(sample_of_not_evaluates he).2]

theorem samplesOf_congr {cs : List Chan} (hmask : t.mask = s.mask) (hgrp : t.grp = s.grp)
    (hsample : ∀ c ∈ cs, ∀ w, sampleOf t c w = sampleOf s c w) : samplesOf t cs = samplesOf s cs := by
  rw [samplesOf, samplesOf, hmask, hgrp]
  exact List.map_congr_left fun c hc => hsample c (List.mem_filter.1 hc).1 _

/-- One SMP step with an unbounded `rsp_out` takes its channel's sample, if the channel is enabled, and leaves those of
the other channels to be taken. -/
theorem smpStep_took (h : Inv s) (hd : s.cfg.rspDepth = none) :
    ∃ v, smpStep s = .next (advanceSidx v) ∧ v.sidx = s.sidx ∧ v.phase = s.phase ∧
      Took (samplesOf s [s.sidx]) s v ∧ ∀ cs, s.sidx ∉ cs → samplesOf v cs = samplesOf s cs := by
  cases hm : maskBit s.mask s.sidx with
  | false =>
    have hnone : samplesOf s [s.sidx] = [] := by simp [samplesOf, hm]
    exact ⟨s, smpStep_disabled hm, rfl, rfl, hnone ▸ Took.nil h, fun _ _ => rfl⟩
  | true =>
    have hone : samplesOf s [s.sidx] = [smpSample s] := by simp [samplesOf, hm]
    obtain ⟨u, hu, hlive, hstep⟩ := smpStep_emits h hm (rspRoom_of_unbounded hd _)
    have hframe := pushIfEnabled_frame hu
    have htrig := pushIfEnabled_trig hu
    have hcfg : u.cfg = s.cfg := by rw [hframe]
    refine ⟨_, hstep, by rw [hframe], by rw [hframe], ⟨hcfg, ?_, ?_, ?_⟩, fun cs hcs => ?_⟩
    · simp [htrig]
    · simp [hone, framesOf]
    · rw [hone]
      exact hlive
    · refine samplesOf_congr (by rw [hframe]) (by rw [hframe]) fun c hc w => ?_
      have hne : c ≠ s.sidx := fun heq => hcs (heq ▸ hc)
      simp [sampleOf, hcfg, htrig, sampleMark_sampleTrig_other _ _ _ _ hne]

/-- The channels from one on: that one, then later ones, among which it is not. -/
theorem channels_drop (c : Chan) :
    channels.drop c.toNat = c :: channels.drop (c.toNat + 1) ∧ c ∉ channels.drop (c.toNat + 1) := by
  revert c
  decide

/-- The rest of the SMP phase, from any channel on, by induction on the number of channels after it. -/
theorem blockSteps_smp {n : Nat} (h : Inv s) (hp : s.phase = .smp) (hd : s.cfg.rspDepth = none)
    (hn : s.sidx.toNat + n = 3) :
    ∃ u, blockSteps (n + 1) s = .next u ∧ Inv u ∧ u.phase = .drainCheck ∧
      Took (samplesOf s (channels.drop s.sidx.toNat)) s u := by
  induction n generalizing s with
  | zero =>
    obtain ⟨v, hv, hsidx, hphase, htook, -⟩ := smpStep_took h hd
    have hstep := (blockStep_of_smp hp).trans hv
    have hlast : s.sidx = 3#2 := BitVec.eq_of_toNat_eq hn
    refine ⟨_, (blockSteps_one s).trans hstep, h.blockStep hstep, ?_, ?_⟩
    · rw [advanceSidx_eq]
      exact if_pos (hsidx.trans hlast)
    · rw [hlast] at htook ⊢
      exact htook.advanceSidx
  | succ n ih =>
    obtain ⟨v, hv, hsidx, hphase, htook, hothers⟩ := smpStep_took h hd
    have hstep := (blockStep_of_smp hp).trans hv
    obtain ⟨hfirst, hnot⟩ := channels_drop s.sidx
    have hnext : (advanceSidx v).phase = .smp ∧ (advanceSidx v).sidx.toNat = s.sidx.toNat + 1 := by
      obtain ⟨-, hnp, hns⟩ | ⟨hlast, -⟩ := advanceSidx_order (hphase.trans hp)
      · exact ⟨hnp, hns.trans (by rw [hsidx])⟩
      · rw [← hsidx, hlast] at hn
        simp at hn
    obtain ⟨hnp, hns⟩ := hnext
    have hrest : samplesOf (advanceSidx v) (channels.drop (s.sidx.toNat + 1)) =
        samplesOf s (channels.drop (s.sidx.toNat + 1)) := by
      rw [← hothers _ hnot, advanceSidx_eq]
      rfl
    obtain ⟨u, hu, huinv, hup, hutook⟩ :=
      ih (h.blockStep hstep) hnp (by rw [htook.advanceSidx.cfg, hd]) (by omega)
    rw [hns, hrest] at hutook
    refine ⟨u, (blockSteps_succ_of_next hstep).trans hu, huinv, hup, ?_⟩
    rw [hfirst, samplesOf_cons]
    exact htook.advanceSidx.trans hutook

/-- From DRAIN_CHECK the block reaches DELAY, by way of a whole drain if one is due (R133, R134). -/
theorem blockSteps_drainCheck (h : Inv s) (hp : s.phase = .drainCheck) (hd : s.cfg.rspDepth = none) :
    ∃ n t, blockSteps n s = .next t ∧ t.phase = .delay ∧
      t.rspOut = s.rspOut ++
        framesOf (if s.trig.triggered && decide (0 < s.count) then liveEntries s else []) := by
  by_cases hdue : s.trig.triggered = true ∧ 0 < s.count
  · obtain ⟨ht, hc⟩ := hdue
    obtain ⟨n, hn⟩ := Nat.exists_eq_succ_of_ne_zero hc.ne'
    obtain ⟨t, hrun, htp, -, hout, -⟩ := (h.enterDrain hc ht).blockSteps_drain rfl hd hn
    refine ⟨n + 2, t, (blockSteps_succ_of_next ?_).trans hrun, htp, hout.trans ?_⟩
    · exact (blockStep_of_drainCheck hp).trans (drainCheckStep_drains ht hc)
    · simp only [ht, hc]
      rfl
  · have hskip : s.trig.triggered = false ∨ s.count = 0 :=
      (not_and_or.1 hdue).imp Bool.eq_false_of_not_eq_true Nat.eq_zero_of_not_pos
    have hnone : (s.trig.triggered && decide (0 < s.count)) = false := by simpa using hdue
    have hstep := (blockStep_of_drainCheck hp).trans (drainCheckStep_skips hskip)
    exact ⟨1, _, (blockSteps_one s).trans hstep, rfl, by simp [hnone, framesOf]⟩

end OneCycle

/-- Settles O59: the four channels' steps from channel 0, then what DRAIN_CHECK leads to. -/
theorem oneCycleEmitsLiveThenDrainedFrames : Obligations.OneCycleEmitsLiveThenDrainedFrames := by
  intro s h hp hs hd
  obtain ⟨u, hu, hinv, hup, htook⟩ := blockSteps_smp (n := 3) h hp hd (by simp [hs])
  rw [hs, show channels.drop (0#2 : Chan).toNat = channels from rfl, samplesOf_channels] at htook
  exact ⟨u, hu, hup, htook.rspOut, htook.live,
    blockSteps_drainCheck hinv hup (htook.cfg ▸ hd)⟩

end Sys2Proof.Machine

/-! ## Steps that stop, and fires on a full buffer (60_exceptions.md)

The block takes no exception (R141), and a fire whose buffered copy is dropped is no loss of the trigger (R149 case 4):
the live frame carries the marker, and the buffer holds the entries it was full of. -/

namespace Sys2Proof.Machine

/-! ### Where a step can stop (R141) -/

section Stops

variable {s : State}

/-- Outside SMP and DRAIN, whose steps use the ring buffer, a step of the block completes in every state. -/
theorem blockStep_completes_off_buffer (hsmp : s.phase ≠ .smp) (hdrain : s.phase ≠ .drain) :
    ∃ t, blockStep s = .next t := by
  cases hp : s.phase with
  | cmd =>
    cases hc : s.cmdIn with
    | nil => exact ⟨_, (blockStep_of_cmd hp).trans (cmdStep_nil hc)⟩
    | cons b rest =>
      obtain ⟨t, ht, -⟩ := blockStep_takes_cmd_byte hp hc
      exact ⟨t, ht⟩
  | waitSmp =>
    rw [blockStep_of_waitSmp hp]
    cases hg : s.smpIn with
    | nil => exact ⟨_, waitSmpStep_nil hg⟩
    | cons g rest => exact ⟨_, waitSmpStep_cons hg⟩
  | smp => exact absurd hp hsmp
  | drainCheck =>
    rw [blockStep_of_drainCheck hp, drainCheckStep]
    split <;> exact ⟨_, rfl⟩
  | drain => exact absurd hp hdrain
  | delay => exact ⟨_, blockStep_of_delay hp⟩

theorem smpStep_completes (h : Inv s) : ∃ t, smpStep s = .next t := by
  cases hm : maskBit s.mask s.sidx with
  | false => exact ⟨_, smpStep_disabled hm⟩
  | true =>
    cases hr : rspRoom s (frameLen (smpSample s).mark) with
    | false => exact ⟨_, smpStep_hold hm hr⟩
    | true =>
      obtain ⟨u, -, -, hstep⟩ := smpStep_emits h hm hr
      exact ⟨_, hstep⟩

/-- In DRAIN a sound state has an entry for POP (43_ring_buffer.md R120). -/
theorem blockStep_drain_completes (h : Inv s) (hp : s.phase = .drain) : ∃ t, blockStep s = .next t := by
  have hc := h.drain_count hp
  cases hr : rspRoom s (frameLen (readSlot s s.tail).mark) with
  | false => exact ⟨_, blockStep_drain_hold hp hc h.tail_lt hr⟩
  | true => exact ⟨_, blockStep_drain_room hp hc h.tail_lt hr⟩

theorem blockStep_completes (h : Inv s) : ∃ t, blockStep s = .next t := by
  by_cases hsmp : s.phase = .smp
  · rw [blockStep_of_smp hsmp]
    exact smpStep_completes h
  · by_cases hdrain : s.phase = .drain
    · exact blockStep_drain_completes h hdrain
    · exact blockStep_completes_off_buffer hsmp hdrain

/-! ### No step refuses an instruction -/

theorem andThen_ne_refused {α β : Type} {o : Host.Outcome α Fault Refusal}
    {f : α → Host.Outcome β Fault Refusal} {r : Refusal} (ho : o ≠ .refused r)
    (hf : ∀ a, f a ≠ .refused r) : andThen o f ≠ .refused r := by
  cases o with
  | next a => exact hf a
  | fault e => nofun
  | refused q => exact fun h => ho (by cases h; rfl)

theorem exec_ne_refused (i : Instr) (s : State) (r : Refusal) : exec i s ≠ .refused r := by
  obtain ⟨t, ht⟩ := exec_completes i s
  rw [ht]
  nofun

theorem pushIfEnabled_ne_refused (e : Sample) (s : State) (r : Refusal) : pushIfEnabled e s ≠ .refused r := by
  unfold pushIfEnabled push
  repeat' split
  all_goals nofun

theorem pop_ne_refused (s : State) (r : Refusal) : pop s ≠ .refused r := by
  unfold pop
  repeat' split
  all_goals nofun

theorem smpStep_ne_refused (s : State) (r : Refusal) : smpStep s ≠ .refused r := by
  unfold smpStep sample
  split
  · nofun
  · split
    · nofun
    · exact andThen_ne_refused
        (andThen_ne_refused (pushIfEnabled_ne_refused _ _ r) fun u => exec_ne_refused _ u r) fun _ => nofun

theorem drainStep_ne_refused (s : State) (r : Refusal) : drainStep s ≠ .refused r := by
  refine andThen_ne_refused (pop_ne_refused s r) fun p => ?_
  split
  · nofun
  · exact andThen_ne_refused (exec_ne_refused _ _ r) fun _ => nofun

theorem blockStep_ne_refused (s : State) (r : Refusal) : blockStep s ≠ .refused r := by
  by_cases hsmp : s.phase = .smp
  · rw [blockStep_of_smp hsmp]
    exact smpStep_ne_refused s r
  · by_cases hdrain : s.phase = .drain
    · rw [blockStep_of_drain hdrain]
      exact drainStep_ne_refused s r
    · obtain ⟨t, ht⟩ := blockStep_completes_off_buffer hsmp hdrain
      rw [ht]
      nofun

/-- Only the block can stop: a step is the block's, or it completes. -/
theorem step_blockStep_or_completes (s : State) :
    (∃ rest, step s = blockStep { s with sched := rest }) ∨ ∃ t, step s = .next t := by
  cases hs : turns s with
  | nil => exact .inl ⟨s.sched, step_of_no_turn hs⟩
  | cons a rest =>
    cases a with
    | block => exact .inl ⟨rest, step_of_block_turn hs⟩
    | hostSend | hostTake | converter | rst =>
      rw [step, turnStep, ← turns, hs]
      exact .inr ⟨_, rfl⟩

end Stops

/-- Settles O4: only the block's step could stop. In a sound state PUSH and POP complete, and in no state does an
operation of the block refuse. -/
theorem noStepStopsInASoundState : Obligations.NoStepStopsInASoundState := by
  refine ⟨fun s h => ?_, fun s r => ?_⟩
  · obtain ⟨rest, hb⟩ | hnext := step_blockStep_or_completes s
    · rw [hb]
      exact blockStep_completes (h.setSched rest)
    · exact hnext
  · obtain ⟨rest, hb⟩ | ⟨t, ht⟩ := step_blockStep_or_completes s
    · rw [hb]
      exact blockStep_ne_refused _ r
    · rw [ht]
      nofun

/-! ### A sample that fires (R149 case 4) -/

section Fires

variable {s t : State} {e : Sample}

theorem push_trig (hp : push e s = .next t) : t.trig = s.trig := by
  obtain ⟨-, rfl⟩ | ⟨-, -, rfl⟩ := push_cases hp <;> rfl

/-- After a PUSH the buffer is not empty, whether it stored or dropped (43_ring_buffer.md R118). -/
theorem push_count_pos (hcap : 0 < s.cfg.cap) (hp : push e s = .next t) : 0 < t.count := by
  obtain ⟨hfull, rfl⟩ | ⟨-, -, rfl⟩ := push_cases hp
  · exact hfull ▸ hcap
  · exact Nat.succ_pos _

/-- The frame of the sample that fires, its marker set (42_trigger_engine.md R115). -/
abbrev firedSample (s : State) : Sample := ⟨true, s.sidx, groupWord s.grp s.sidx⟩

/-- The state with the flags of a fire, onto whose buffer the copy is pushed (42_trigger_engine.md R111). -/
def firedFlags (s : State) : State :=
  { s with
    trig := { s.trig with
      above := aboveNext s.cfg.hystCode s.trig (groupWord s.grp s.sidx), triggered := true, armed := false } }

/-- The step of a sample that fires: PUSH, then the frame with its marker, whatever PUSH did. -/
theorem blockStep_of_fire (he : Evaluates s)
    (hf : evalFires s.cfg.hystCode s.trig (groupWord s.grp s.sidx) = true) :
    blockStep s = andThen (push (firedSample s) (firedFlags s)) fun u =>
      .next (advanceSidx { u with rspOut := s.rspOut ++ encodeFrame (firedSample s) }) := by
  obtain ⟨-, hp, hm, hon, hch, hr⟩ := he
  obtain ⟨hmark, htrig⟩ := sample_of_evaluates (hyst := s.cfg.hystCode) (w := groupWord s.grp s.sidx) ⟨hon, hch⟩
  have hsample : smpSample s = firedSample s := by rw [smpSample, sampleOf, hmark, hf]
  have hflags : smpEvaluated s = firedFlags s := by rw [smpEvaluated, htrig, evalTrig_of_fire hf, firedFlags]
  rw [blockStep_of_smp hp, smpStep_room hm hr, hsample, hflags,
    pushIfEnabled_of_enabled (s := firedFlags s) hon]

end Fires

/-- Settles O55: the frame is appended with its marker whatever PUSH does. PUSH on a full buffer only counts the drop,
and no PUSH leaves the buffer empty. -/
theorem firesMarkTheLiveFrameAndLeaveEntries : Obligations.FiresMarkTheLiveFrameAndLeaveEntries := by
  refine ⟨fun s he hfull hf => ?_, fun s t h he hf hs => ?_, fun s hp hc => ?_⟩
  · have hstep := blockStep_of_fire he hf
    rw [push_full (s := firedFlags s) hfull, andThen_next] at hstep
    exact ⟨_, hstep, advanceSidx_rspOut _, by simp [firedFlags, satSucc_toNat]⟩
  · rw [blockStep_of_fire he hf] at hs
    obtain ⟨u, hu, hs⟩ := andThen_eq_next.1 hs
    cases hs
    have hcount := push_count_pos (s := firedFlags s) h.params.cap_pos hu
    have htrig : u.trig.triggered = true := by rw [push_trig hu]; rfl
    exact ⟨advanceSidx_rspOut _, by simpa using hcount, by simpa using htrig⟩
  · exact (blockStep_of_drainCheck hp).trans (drainCheckStep_skips (.inr hc))

end Sys2Proof.Machine

/-! ## Reset, the marker invariant and starvation (70_reset_and_hazards.md)

The marker invariant (R166) speaks of the marked unread entries, the phase and two flags, so an operation needs an
argument only where it moves one of these: PUSH of a sample that fires, POP, and the phases around a drain. Starvation
(R172) is an invariant of one step along a repeating schedule. -/

namespace Sys2Proof.Machine

/-- Settles O1: both kinds of reset are at the reset values, and `cmd_in` is empty there, so the CMD step ends the
phase. -/
theorem resetGivesSpecifiedValues : Obligations.ResetGivesSpecifiedValues :=
  ⟨resetOf_atReset _, fun s => ⟨takeReset s, rfl, takeReset_atReset s, rfl⟩,
    fun _ h => (blockStep_of_cmd h.phase).trans (cmdStep_nil h.cmdIn)⟩

/-! ### The marked unread entries (R166) -/

section Marks

variable {s t : State} {e : Sample}

@[simp] theorem liveEntries_emit (e : Sample) (s : State) : liveEntries (emit e s) = liveEntries s := by
  cases hr : rspRoom s (frameLen e.mark) with
  | false => rw [emit_hold hr]
  | true =>
    rw [emit_room hr]
    rfl

/-- PUSH adds at most its own marker to those of the unread entries: the cut at CAP can only lose it. -/
theorem liveMarks_pushIfEnabled_le (h : RingOk s) (hp : pushIfEnabled e s = .next t) :
    liveMarks t ≤ liveMarks s + e.mark.toNat := by
  obtain ⟨u, hu, hlive⟩ := h.pushIfEnabled_take e
  cases hu.symm.trans hp
  calc liveMarks t
      ≤ (liveEntries s ++ if s.trig.enabled then [e] else []).countP (·.mark) := by
        rw [liveMarks, hlive]
        exact (List.take_sublist _ _).countP_le
    _ ≤ liveMarks s + e.mark.toNat := by
        rw [List.countP_append, ← liveMarks]
        cases s.trig.enabled <;> cases hm : e.mark <;> simp [hm]

theorem pushIfEnabled_phase (hp : pushIfEnabled e s = .next t) : t.phase = s.phase := by
  rw [pushIfEnabled_frame hp]

theorem liveMarks_pop_le {p : Sample × State} (hp : pop s = .next p) : liveMarks p.2 ≤ liveMarks s := by
  rw [liveMarks, liveMarks, liveEntries_pop hp, List.countP_cons]
  exact Nat.le_add_right _ _

theorem count_pos_of_liveMarks_pos (h : 0 < liveMarks s) : 0 < s.count :=
  Nat.pos_of_ne_zero fun hc => h.ne' (liveMarks_of_count_eq_zero hc)

end Marks

/-! ### Every step keeps the marker invariant (R166) -/

section OperationsKeepMarkInv

variable {s t u : State}

theorem markInv_of_no_marks (h : liveMarks s = 0) : MarkInv s := by
  constructor <;> omega

/-- A state with no more marks, the same phase and the same flags. -/
theorem MarkInv.of_le (h : MarkInv s) (hm : liveMarks t ≤ liveMarks s) (hp : t.phase = s.phase)
    (ht : t.trig = s.trig) : MarkInv t where
  marks_le := hm.trans h.marks_le
  marked_phase hpos := hp ▸ h.marked_phase (hpos.trans_le hm)
  marked_armed hpos := ht ▸ h.marked_armed (hpos.trans_le hm)
  marked_triggered hpos := ht ▸ h.marked_triggered (hpos.trans_le hm)

/-- While the engine is armed no unread entry is marked, so the next fire finds none. -/
theorem MarkInv.no_marks_of_armed (h : MarkInv s) (ha : s.trig.armed = true) : liveMarks s = 0 :=
  Nat.eq_zero_of_not_pos fun hpos => Bool.noConfusion (ha.symm.trans (h.marked_armed hpos))

/-- In CMD, WAIT_SMP and DELAY no unread entry is marked: the commands, which move the flags, find none. -/
theorem MarkInv.no_marks_of_phase (h : MarkInv s) (hp : s.phase = .cmd ∨ s.phase = .waitSmp ∨ s.phase = .delay) :
    liveMarks s = 0 := by
  refine Nat.eq_zero_of_not_pos fun hpos => ?_
  obtain hq | hq | hq := h.marked_phase hpos <;> simp [hq] at hp

theorem MarkInv.setSched (h : MarkInv s) (rest : List Agent) : MarkInv { s with sched := rest } := { h with }

theorem MarkInv.emit (h : MarkInv s) (e : Sample) : MarkInv (emit e s) :=
  h.of_le (by rw [liveMarks, liveEntries_emit, ← liveMarks]) (emit_phase e s) (emit_trig e s)

/-- Where the channels end, SMP goes on to DRAIN_CHECK, so the marked entry stays where R166 allows it. -/
theorem MarkInv.advanceSidx (h : MarkInv s) (hp : s.phase = .smp) : MarkInv (advanceSidx s) := by
  rw [advanceSidx_eq]
  refine { h with marked_phase := fun _ => ?_ }
  show (if s.sidx = 3#2 then Phase.drainCheck else s.phase) = .smp ∨ _
  split
  · exact .inr (.inl rfl)
  · exact .inl hp

/-- EVAL's marker is what moves the two flags: a fire disarms and triggers (42_trigger_engine.md R111, R115). -/
theorem sampleTrig_armed (hyst : Nat) (tr : Trig) (c : Chan) (w : Word) :
    (sampleTrig hyst tr c w).armed = (tr.armed && !sampleMark hyst tr c w) := by
  cases he : evaluates tr c <;> simp [sampleTrig, sampleMark, he, evalTrig]

theorem sampleTrig_triggered (hyst : Nat) (tr : Trig) (c : Chan) (w : Word) :
    (sampleTrig hyst tr c w).triggered = (tr.triggered || sampleMark hyst tr c w) := by
  cases he : evaluates tr c <;> simp [sampleTrig, sampleMark, he, evalTrig]

/-- Only an armed engine fires (42_trigger_engine.md R114). -/
theorem armed_of_sampleMark {hyst : Nat} {tr : Trig} {c : Chan} {w : Word} (h : sampleMark hyst tr c w = true) :
    tr.armed = true :=
  Bool.and_elim_right (Bool.and_elim_right h)

/-- A sample that does not fire adds no marked entry and leaves the flags; one that fires was taken by an armed engine,
so it becomes the only marked entry. -/
theorem MarkInv.sampled (h : MarkInv s) (hr : RingOk s) (hp : s.phase = .smp)
    (hu : pushIfEnabled (smpSample s) (smpEvaluated s) = .next u) : MarkInv u := by
  have hle : liveMarks u ≤ liveMarks s + (smpSample s).mark.toNat :=
    liveMarks_pushIfEnabled_le (s := smpEvaluated s) ⟨hr.tail_lt, hr.count_le, hr.head_eq⟩ hu
  have hphase : u.phase = .smp := (pushIfEnabled_phase hu).trans hp
  have harmed : u.trig.armed = (s.trig.armed && !(smpSample s).mark) :=
    pushIfEnabled_trig hu ▸ sampleTrig_armed _ _ _ _
  have htriggered : u.trig.triggered = (s.trig.triggered || (smpSample s).mark) :=
    pushIfEnabled_trig hu ▸ sampleTrig_triggered _ _ _ _
  cases hm : (smpSample s).mark with
  | false =>
    rw [hm] at hle harmed htriggered
    exact ⟨hle.trans h.marks_le, fun _ => .inl hphase,
      fun hpos => by rw [harmed, h.marked_armed (hpos.trans_le hle), Bool.false_and],
      fun hpos => by rw [htriggered, h.marked_triggered (hpos.trans_le hle), Bool.true_or]⟩
  | true =>
    have hnone : liveMarks s = 0 := h.no_marks_of_armed (armed_of_sampleMark hm)
    rw [hm] at hle harmed htriggered
    exact ⟨hle.trans_eq (by rw [hnone]; rfl), fun _ => .inl hphase,
      fun _ => by rw [harmed, Bool.not_true, Bool.and_false],
      fun _ => by rw [htriggered, Bool.or_true]⟩

/-- The end of a drain rearms and leaves DRAIN only with the buffer empty (44_acquisition_cycle.md R134, R135). -/
theorem MarkInv.finishDrain (h : MarkInv s) : MarkInv (finishDrain s) := by
  obtain hc | hc := Nat.eq_zero_or_pos s.count
  · exact markInv_of_count_eq_zero ((finishDrain_count s).trans hc)
  · rwa [finishDrain_of_pos hc]

theorem MarkInv.cmdStep (h : MarkInv s) (hp : s.phase = .cmd) (hs : cmdStep s = .next t) : MarkInv t := by
  have hsame : liveMarks t = liveMarks s := by
    rw [cmdStep_frame hs]
    rfl
  exact markInv_of_no_marks (hsame.trans (h.no_marks_of_phase (.inl hp)))

theorem MarkInv.waitSmpStep (h : MarkInv s) (hp : s.phase = .waitSmp) (hs : waitSmpStep s = .next t) :
    MarkInv t := by
  have hnone := h.no_marks_of_phase (.inr (.inl hp))
  obtain ⟨-, rfl⟩ | ⟨g, rest, -, rfl⟩ := waitSmpStep_cases hs
  · exact h
  · exact markInv_of_no_marks hnone

theorem MarkInv.smpStep (h : MarkInv s) (hr : RingOk s) (hp : s.phase = .smp) (hs : smpStep s = .next t) :
    MarkInv t := by
  obtain ⟨-, rfl⟩ | ⟨-, -, rfl⟩ | ⟨-, -, u, hu, rfl⟩ := smpStep_cases hs
  · exact h.advanceSidx hp
  · exact h
  · have hphase : u.phase = .smp := (pushIfEnabled_phase hu).trans hp
    exact ((h.sampled hr hp hu).emit _).advanceSidx ((emit_phase _ u).trans hphase)

/-- DRAIN_CHECK skips the drain only where no trigger is pending or no entry waits, so no marked entry is left
behind. -/
theorem MarkInv.drainCheckStep (h : MarkInv s) (hs : drainCheckStep s = .next t) : MarkInv t := by
  obtain ⟨-, -, rfl⟩ | ⟨hskip, rfl⟩ := drainCheckStep_cases hs
  · exact { h with marked_phase := fun _ => .inr (.inr rfl) }
  · have hnone : liveMarks s = 0 := Nat.eq_zero_of_not_pos fun hpos =>
      hskip ⟨h.marked_triggered hpos, count_pos_of_liveMarks_pos hpos⟩
    exact markInv_of_no_marks hnone

theorem MarkInv.drainStep (h : MarkInv s) (hs : drainStep s = .next t) : MarkInv t := by
  obtain ⟨hc, ht, ⟨-, rfl⟩ | ⟨-, rfl⟩⟩ := drainStep_cases hs
  · exact h
  · exact ((h.of_le (liveMarks_pop_le (pop_completes hc ht)) rfl rfl).emit _).finishDrain

theorem MarkInv.blockStep (h : MarkInv s) (hr : RingOk s) (hs : blockStep s = .next t) : MarkInv t := by
  obtain ⟨hp, hs⟩ | ⟨hp, hs⟩ | ⟨hp, hs⟩ | ⟨-, hs⟩ | ⟨-, hs⟩ | ⟨hp, rfl⟩ := blockStep_cases hs
  · exact h.cmdStep hp hs
  · exact h.waitSmpStep hp hs
  · exact h.smpStep hr hp hs
  · exact h.drainCheckStep hs
  · exact h.drainStep hs
  · exact markInv_of_no_marks (h.no_marks_of_phase (s := s) (.inr (.inr hp)))

/-- The other agents write neither the buffer nor the block's phase and flags. -/
theorem MarkInv.step (h : MarkInv s) (hr : RingOk s) (hs : step s = .next t) : MarkInv t := by
  obtain ⟨-, rest, hb⟩ | ⟨rest, -, rfl⟩ | ⟨rest, -, rfl⟩ | ⟨rest, -, rfl⟩ | ⟨rest, -, rfl⟩ := step_cases hs
  · exact (h.setSched rest).blockStep ⟨hr.tail_lt, hr.count_le, hr.head_eq⟩ hb
  · rw [(hostSend_frame _).1]
    exact { h with }
  · rw [(hostTake_frame _).1]
    exact { h with }
  · rw [(converterOffer_frame _).1]
    exact { h with }
  · exact (takeReset_atReset _).markInv

end OperationsKeepMarkInv

/-- Settles O5: each turn is one of the operations above, on the state with that turn taken off the schedule. -/
theorem everyStepKeepsMarkInvariant : Obligations.EveryStepKeepsMarkInvariant :=
  fun _ _ h hm hs => hm.step h.ringOk hs

/-! ### The length of a drain (R166, 30_encoding.md R75) -/

/-- Each frame has 5 bytes, and a marked one one more. -/
theorem framesOf_length (es : List Sample) : (framesOf es).length = 5 * es.length + es.countP (·.mark) := by
  induction es with
  | nil => rfl
  | cons e es ih =>
    have hcons : (framesOf (e :: es)).length = frameLen e.mark + (framesOf es).length := by
      rw [framesOf, List.flatMap_cons, List.length_append, encodeFrame_length, ← framesOf]
    rw [hcons, ih, List.length_cons, List.countP_cons]
    cases e.mark <;> simp only [frameLen, if_true, Bool.false_eq_true, if_false] <;> omega

theorem drainBurst_le {s : State} (h : Inv s) (hm : MarkInv s) :
    (framesOf (liveEntries s)).length ≤ 5 * s.cfg.cap + 1 := by
  rw [framesOf_length, liveEntries_length, ← liveMarks]
  exact Nat.add_le_add (Nat.mul_le_mul_left 5 h.count_le) hm.marks_le

/-- Settles O6: at most CAP entries wait, at most one of them marked. -/
theorem drainBurstIsBounded : Obligations.DrainBurstIsBounded :=
  ⟨fun _ => drainBurst_le, fun _ h hm hcap => (drainBurst_le h hm).trans_eq (by rw [hcap])⟩

/-! ### A host that never stops (R172) -/

section Starvation

variable {s : State} {k : Nat}

theorem refill_of_ne_nil {α : Type} {now again : List α} (h : now ≠ []) : refill now again = now :=
  (refill_cases now again).elim And.right fun hn => absurd hn.1 h

theorem step_of_hostSend_turn {more : List Agent} (h : turns s = .hostSend :: more) :
    step s = .next (hostSend { s with sched := more }) := by
  rw [step, turnStep, ← turns, h]
  rfl

/-- After a turn of a host with a byte to append, `cmd_in` is not empty: an empty queue has room (00_scope.md R9). -/
theorem hostSend_cmdIn_ne_nil (hp : ParamsOk s.cfg) (hb : s.hostAgain ≠ []) : (hostSend s).cmdIn ≠ [] := by
  unfold hostSend
  split
  · rename_i hnone
    exact absurd (refill_eq_nil.1 hnone).2 hb
  · split
    · simp
    · rename_i hfull
      refine fun hempty => hfull ?_
      rw [cmdRoom, hempty]
      cases hd : s.cfg.cmdDepth with
      | none => rfl
      | some d =>
        have hdepth := hp.cmdDepth_ge d hd
        exact (room_some d 0 1).2 (by omega)

/-- A sound state in CMD whose host appends, over and over, before each step of the block: in the turns up to the
block's next step the host has a turn left, or a byte already waits. -/
structure Starved (k : Nat) (s : State) : Prop where
  inv : Inv s
  phase : s.phase = .cmd
  schedAgain : s.schedAgain = List.replicate (k + 1) .hostSend ++ [.block]
  hostAgain : s.hostAgain ≠ []
  ahead : ∃ j, turns s = List.replicate j .hostSend ++ [.block] ∧ (j = 0 → s.cmdIn ≠ [])

/-- What stays as it is while the block takes no sample and emits no frame. -/
structure NoTraffic (s t : State) : Prop where
  smpIn : t.smpIn = s.smpIn
  grp : t.grp = s.grp
  rspOut : t.rspOut = s.rspOut
  hostReceived : t.hostReceived = s.hostReceived

theorem NoTraffic.trans {t u : State} (h : NoTraffic s t) (g : NoTraffic t u) : NoTraffic s u :=
  ⟨g.smpIn.trans h.smpIn, g.grp.trans h.grp, g.rspOut.trans h.rspOut, g.hostReceived.trans h.hostReceived⟩

/-- The host's turn fills `cmd_in` for the block's. -/
theorem Starved.hostSend (h : Starved k s) {j : Nat}
    (hturns : turns s = List.replicate (j + 1) .hostSend ++ [.block]) :
    ∃ t, step s = .next t ∧ Starved k t ∧ NoTraffic s t := by
  have hstep := step_of_hostSend_turn (more := List.replicate j .hostSend ++ [.block]) hturns
  refine ⟨_, hstep, ⟨h.inv.step hstep, ?_, ?_, ?_, j, ?_, fun _ => ?_⟩, ?_⟩
  · rw [hostSend_phase, h.phase]
  · rw [hostSend_schedAgain, h.schedAgain]
  · rw [hostSend_hostAgain]
    exact h.hostAgain
  · rw [turns, hostSend_sched]
    exact refill_of_ne_nil (by simp)
  · exact hostSend_cmdIn_ne_nil (h.inv.setSched _).params h.hostAgain
  · constructor <;> simp

/-- The block's turn takes a byte in CMD, whatever the decoder makes of it; then the turns begin again. -/
theorem Starved.block (h : Starved k s) (hturns : turns s = [.block]) (hc : s.cmdIn ≠ []) :
    ∃ t, step s = .next t ∧ Starved k t ∧ NoTraffic s t := by
  obtain ⟨b, rest, hbytes⟩ := List.exists_cons_of_ne_nil hc
  obtain ⟨t, ht, hphase, -⟩ := blockStep_takes_cmd_byte (s := { s with sched := [] }) h.phase hbytes
  have hstep := (step_of_block_turn hturns).trans ht
  have hframe := cmdStep_frame ((blockStep_of_cmd (s := { s with sched := [] }) h.phase).symm.trans ht)
  have hagain : t.schedAgain = s.schedAgain := by rw [hframe]
  refine ⟨t, hstep, ⟨h.inv.step hstep, hphase, hagain.trans h.schedAgain, ?_, k + 1, ?_, nofun⟩, ?_⟩
  · rw [hframe]
    exact h.hostAgain
  · rw [turns, hagain, ← h.schedAgain, hframe]
    rfl
  · constructor <;> rw [hframe]

theorem Starved.step (h : Starved k s) : ∃ t, step s = .next t ∧ Starved k t ∧ NoTraffic s t := by
  obtain ⟨j, hturns, hwaits⟩ := h.ahead
  cases j with
  | zero => exact h.block hturns (hwaits rfl)
  | succ j => exact h.hostSend hturns

/-- Starvation has no end, by induction on the number of steps. -/
theorem Starved.machineSteps (n : Nat) (h : Starved k s) :
    ∃ t, machineSteps n s = .next t ∧ Starved k t ∧ NoTraffic s t := by
  induction n generalizing s with
  | zero => exact ⟨s, rfl, h, ⟨rfl, rfl, rfl, rfl⟩⟩
  | succ n ih =>
    obtain ⟨u, hu, hstarved, htraffic⟩ := h.step
    obtain ⟨t, ht, hend, hrest⟩ := ih hstarved
    exact ⟨t, by rw [Machine.machineSteps, hu, andThen_next, ht], hend, htraffic.trans hrest⟩

end Starvation

/-- Settles O60: at the start of the repeating turns the host has k + 1 of them before the block's. -/
theorem hostStarvationKeepsTheBlockInCmd : Obligations.HostStarvationKeepsTheBlockInCmd := by
  intro s k h hp hsched hagain hbytes n
  have hstarved : Starved k s :=
    ⟨h, hp, hagain, hbytes, k + 1, by rw [turns, hsched, refill_nil, hagain], nofun⟩
  obtain ⟨t, ht, hend, hsmp, hgrp, hrsp, hrecv⟩ := hstarved.machineSteps n
  exact ⟨t, ht, hend.phase, hsmp, hgrp, hrsp, hrecv⟩

end Sys2Proof.Machine
